-- ==== Sys2Proof/Word.lean ====
section
/-! DEFINITION. The machine's one quantity, the word, and the register numbers (R20, R21).

A word is the unit of every register, memory cell and instruction field (R5), and the spec reads it as an integer of
`[-2^(WORD_BITS-1), 2^(WORD_BITS-1))` (R13). The model writes a word as that integer, an `Int`. WORD_BITS is a configuration
value (`Config.wordBits`), so the range is no fact of the type: `Config.IsWord` states it, and it is part of the machine's
invariant (log 1). -/

namespace Sys2Proof

/-- A register index (R20); NREGS is 32 (R5). The bound of R73 is a fact of the type. -/
abbrev Reg := Fin 32

/-- IP_INDEX (R5, R21). -/
def Reg.ip : Reg := 0
/-- RP_INDEX (R5, R21). -/
def Reg.rp : Reg := 29
/-- FP_INDEX (R5, R21). -/
def Reg.fp : Reg := 30
/-- SP_INDEX (R5, R21). -/
def Reg.sp : Reg := 31

/-- The operand word that names a register (R73). -/
def Reg.word (r : Reg) : Int := (r.val : Int)

end Sys2Proof
end

