-- ==== Sys2Proof/Syntax.lean ====
section
/-! DEFINITION. The 18 instructions (R76), one constructor per row of the opcode table, operands in encoding order (R72). -/

namespace Sys2Proof

/-- A decoded instruction (R76). `imm` is a whole immediate word (R74); `rs` is a source register, `rd` a destination, `ra` a
register that holds an address or a jump target (R73). -/
inductive Instr where
  | movi (imm : Int) (rd : Reg)
  | mov (rs rd : Reg)
  | add (rs rd : Reg)
  | sub (rs rd : Reg)
  | mul (rs rd : Reg)
  | idiv (rs rd : Reg)
  | jmp (ra : Reg)
  | jnz (rs ra : Reg)
  | out (rs : Reg)
  | halt
  | ld (ra rd : Reg)
  | st (ra rs : Reg)
  | jal (ra : Reg)
  | ret
  | push (rs : Reg)
  | pop (rd : Reg)
  | ldlo (imm : Int) (rd : Reg)
  | stlo (imm : Int) (rs : Reg)
  deriving DecidableEq, Repr

end Sys2Proof
end

