-- ==== Sys2Proof/WellFormed.lean ====
section
/-! DEFINITION. The four formats (R72), the opcode map (R76) and which word sequences are well-formed instructions (R71,
R73, R74, R78). A term of `Instr` is well formed by its type, since a register operand is a `Fin 32`; the checks are about
words. -/

namespace Sys2Proof

/-- What an operand word is (R70): an immediate literal or a register index. -/
inductive OperandKind where
  | imm
  | reg
  deriving DecidableEq, Repr

/-- The four formats of R72. -/
inductive Format where
  | f0
  | f1r
  | f2rr
  | f2ir
  deriving DecidableEq, Repr

/-- The operand words of a format in memory order (R72). -/
def Format.operands : Format → List OperandKind
  | .f0 => []
  | .f1r => [.reg]
  | .f2rr => [.reg, .reg]
  | .f2ir => [.imm, .reg]

/-- Instruction length in words, the column `len` of R72. -/
def Format.length (f : Format) : Nat := f.operands.length + 1

/-- The columns `tag` and `format` of R76; `none` for an illegal opcode word (R78). -/
def formatOfTag (tag : Int) : Option Format :=
  match tag.toNat with
  | 1 => some .f2ir
  | 2 => some .f2rr
  | 3 => some .f2rr
  | 4 => some .f2rr
  | 5 => some .f2rr
  | 6 => some .f2rr
  | 7 => some .f1r
  | 8 => some .f2rr
  | 9 => some .f1r
  | 10 => some .f0
  | 11 => some .f2rr
  | 12 => some .f2rr
  | 13 => some .f1r
  | 14 => some .f0
  | 15 => some .f1r
  | 16 => some .f1r
  | 17 => some .f2ir
  | 18 => some .f2ir
  | _ => none

/-- Whether a word may stand as an operand of that kind: any word is a legal immediate (R74), a register operand must
satisfy `0 <= r < 32` (R73). -/
def OperandKind.accepts : OperandKind → Int → Bool
  | .imm, _ => true
  | .reg, w => decide (0 ≤ w ∧ w < 32)

/-- One operand word for each kind, each acceptable. -/
def operandsAccept : List OperandKind → List Int → Bool
  | [], [] => true
  | k :: ks, w :: ws => k.accepts w && operandsAccept ks ws
  | _, _ => false

/-- The words are exactly one legal instruction: a legal tag, as many operand words as its format has, and every register
operand in range (R71, R73, R78). -/
def WellFormed : List Int → Bool
  | [] => false
  | tag :: ws =>
    match formatOfTag tag with
    | none => false
    | some f => operandsAccept f.operands ws

/-- The tag of an instruction (R76). -/
def Instr.tag : Instr → Int
  | .movi _ _ => 1
  | .mov _ _ => 2
  | .add _ _ => 3
  | .sub _ _ => 4
  | .mul _ _ => 5
  | .idiv _ _ => 6
  | .jmp _ => 7
  | .jnz _ _ => 8
  | .out _ => 9
  | .halt => 10
  | .ld _ _ => 11
  | .st _ _ => 12
  | .jal _ => 13
  | .ret => 14
  | .push _ => 15
  | .pop _ => 16
  | .ldlo _ _ => 17
  | .stlo _ _ => 18

/-- The format of an instruction (R76). -/
def Instr.format : Instr → Format
  | .movi _ _ => .f2ir
  | .mov _ _ => .f2rr
  | .add _ _ => .f2rr
  | .sub _ _ => .f2rr
  | .mul _ _ => .f2rr
  | .idiv _ _ => .f2rr
  | .jmp _ => .f1r
  | .jnz _ _ => .f2rr
  | .out _ => .f1r
  | .halt => .f0
  | .ld _ _ => .f2rr
  | .st _ _ => .f2rr
  | .jal _ => .f1r
  | .ret => .f0
  | .push _ => .f1r
  | .pop _ => .f1r
  | .ldlo _ _ => .f2ir
  | .stlo _ _ => .f2ir

/-- Instruction length in words (R71, R76). -/
def Instr.length (i : Instr) : Nat := i.format.length

end Sys2Proof
end

