-- ==== Sys2Proof/Decode.lean ====
section
/-! DEFINITION. The decoder: total on any list of words, rejecting by name, and after it the encoder, both from the opcode map
R76. The machine has no bytes (R52), so an instruction is a list of whole words (R70). -/

namespace Sys2Proof

/-- Why a list of words does not begin with an instruction. The words are examined in the order of R93. -/
inductive DecodeError where
  /-- There is no word at offset `k` (R91, R93). -/
  | missing (k : Nat)
  /-- The opcode word is not a tag 1 to 18 (R78, R92). -/
  | invalidOpcode (tag : Int)
  /-- The operand word at offset `k` is a register operand outside 0 to 31 (R73, R93). -/
  | badRegister (k : Nat) (w : Int)
  deriving DecidableEq, Repr

/-- Read an immediate operand, the word at offset `k` (R74). -/
def readImm (k : Nat) : List Int → Except DecodeError (Int × List Int)
  | [] => .error (.missing k)
  | w :: rest => .ok (w, rest)

/-- Read a register operand, the word at offset `k` (R73). -/
def readReg (k : Nat) : List Int → Except DecodeError (Reg × List Int)
  | [] => .error (.missing k)
  | w :: rest => if h : 0 ≤ w ∧ w < 32 then .ok (⟨w.toNat, by omega⟩, rest) else .error (.badRegister k w)

/-- Operands of format F1R (R72). -/
def decodeF1R (mk : Reg → Instr) (ws : List Int) : Except DecodeError (Instr × List Int) :=
  match readReg 1 ws with
  | .error e => .error e
  | .ok (r, rest) => .ok (mk r, rest)

/-- Operands of format F2RR (R72). -/
def decodeF2RR (mk : Reg → Reg → Instr) (ws : List Int) : Except DecodeError (Instr × List Int) :=
  match readReg 1 ws with
  | .error e => .error e
  | .ok (r, rest) =>
    match readReg 2 rest with
    | .error e => .error e
    | .ok (q, rest') => .ok (mk r q, rest')

/-- Operands of format F2IR (R72). -/
def decodeF2IR (mk : Int → Reg → Instr) (ws : List Int) : Except DecodeError (Instr × List Int) :=
  match readImm 1 ws with
  | .error e => .error e
  | .ok (imm, rest) =>
    match readReg 2 rest with
    | .error e => .error e
    | .ok (r, rest') => .ok (mk imm r, rest')

/-- The instruction at the head of a list of words, with the words after it (R71, R76, R92, R93). -/
def decode : List Int → Except DecodeError (Instr × List Int)
  | [] => .error (.missing 0)
  | tag :: ws =>
    match tag.toNat with
    | 1 => decodeF2IR .movi ws
    | 2 => decodeF2RR .mov ws
    | 3 => decodeF2RR .add ws
    | 4 => decodeF2RR .sub ws
    | 5 => decodeF2RR .mul ws
    | 6 => decodeF2RR .idiv ws
    | 7 => decodeF1R .jmp ws
    | 8 => decodeF2RR .jnz ws
    | 9 => decodeF1R .out ws
    | 10 => .ok (.halt, ws)
    | 11 => decodeF2RR .ld ws
    | 12 => decodeF2RR .st ws
    | 13 => decodeF1R .jal ws
    | 14 => .ok (.ret, ws)
    | 15 => decodeF1R .push ws
    | 16 => decodeF1R .pop ws
    | 17 => decodeF2IR .ldlo ws
    | 18 => decodeF2IR .stlo ws
    | _ => .error (.invalidOpcode tag)

/-- The words of an instruction, opcode word first (R70, R72, R76). -/
def encode : Instr → List Int
  | .movi imm rd => [1, imm, rd.word]
  | .mov rs rd => [2, rs.word, rd.word]
  | .add rs rd => [3, rs.word, rd.word]
  | .sub rs rd => [4, rs.word, rd.word]
  | .mul rs rd => [5, rs.word, rd.word]
  | .idiv rs rd => [6, rs.word, rd.word]
  | .jmp ra => [7, ra.word]
  | .jnz rs ra => [8, rs.word, ra.word]
  | .out rs => [9, rs.word]
  | .halt => [10]
  | .ld ra rd => [11, ra.word, rd.word]
  | .st ra rs => [12, ra.word, rs.word]
  | .jal ra => [13, ra.word]
  | .ret => [14]
  | .push rs => [15, rs.word]
  | .pop rd => [16, rd.word]
  | .ldlo imm rd => [17, imm, rd.word]
  | .stlo imm rs => [18, imm, rs.word]

/-- The word the opcode table writes as those 32 bits, read as two's complement (R13); the table gives an opcode word 32 bits,
the default of WORD_BITS. -/
def tableWord (v : Nat) : Int := (BitVec.ofNat 32 v).toInt

/-- The first three words of an instruction whose low `nbits` bits are those of `w` and whose other bits are 0; bits 0 to 31
are the opcode word, 32 to 63 the word at offset 1, 64 to 95 the word at offset 2 (log 11). -/
def tableWords (nbits w : Nat) : List Int :=
  let v := w % 2 ^ nbits
  [tableWord v, tableWord (v / 2 ^ 32), tableWord (v / 2 ^ 64)]

/-- The instruction the decoder reads from the opcode table's bits; `none` where it refuses. -/
def decodeTableWord (nbits w : Nat) : Option Instr :=
  match decode (tableWords nbits w) with
  | .ok (i, _) => some i
  | .error _ => none

end Sys2Proof
end

