-- ==== Sys2Proof/Config.lean ====
section
/-! DEFINITION. The implementation parameters of R5 that a model takes as configuration values. They stand in State (log 2),
so every statement about every state holds for every value of them. -/

namespace Sys2Proof

/-- IDIV_MIN_NEG1 (R5, decision D8): what IDIV of the least word by -1 does. -/
inductive IdivMinNeg1 where
  /-- The quotient wraps to the least word. -/
  | wrap
  /-- The step raises DivideOverflow. -/
  | fault
  deriving DecidableEq, Repr

/-- The parameters of R5 with more than one admissible value. -/
structure Config where
  /-- WORD_BITS: how many bits a word has. -/
  wordBits : Nat
  /-- MEM_WORDS: how many words memory holds. -/
  memWords : Nat
  /-- EXIT_FAILURE: the exit code of a load failure and of a fault outside debug mode. -/
  exitFailure : Int
  /-- IDIV_MIN_NEG1. -/
  idivMinNeg1 : IdivMinNeg1
  deriving DecidableEq, Repr

/-- The values this hardware takes (R5). -/
def Config.standard : Config := { wordBits := 32, memWords := 500, exitFailure := 1, idivMinNeg1 := .wrap }

/-- EXIT_OK (R5). -/
def exitOk : Int := 0

/-- The constraints R5 puts on the parameters: `1 <= MEM_WORDS <= 2^(WORD_BITS-1) - 3`, and EXIT_FAILURE is non-zero. -/
abbrev Config.Valid (c : Config) : Prop :=
  1 ≤ c.memWords ∧ c.memWords + 3 ≤ 2 ^ (c.wordBits - 1) ∧ c.exitFailure ≠ exitOk

/-- The integers that are words: those of `[-2^(WORD_BITS-1), 2^(WORD_BITS-1))` (R13). -/
abbrev Config.IsWord (c : Config) (v : Int) : Prop :=
  -((2 ^ (c.wordBits - 1) : Nat) : Int) ≤ v ∧ v < ((2 ^ (c.wordBits - 1) : Nat) : Int)

end Sys2Proof
end

