-- ==== Sys2Proof/Machine/Alu.lean ====
section
/-! DEFINITION. The ALU (42_alu.md section 1): exact integer arithmetic narrowed to a word of WORD_BITS bits. -/

namespace Sys2Proof.Machine

/-- `wrap` of R13: the word congruent to `v` modulo `2^WORD_BITS`. -/
def wrap (c : Config) (v : Int) : Int := v.bmod (2 ^ c.wordBits)

/-- The least word, `-2^(WORD_BITS-1)`. -/
def minWord (c : Config) : Int := -((2 ^ (c.wordBits - 1) : Nat) : Int)

/-- R120. -/
def aluAdd (c : Config) (a b : Int) : Int := wrap c (a + b)

/-- R121. -/
def aluSub (c : Config) (a b : Int) : Int := wrap c (a - b)

/-- R122. -/
def aluMul (c : Config) (a b : Int) : Int := wrap c (a * b)

/-- R123, for `b` not 0: the quotient rounded toward zero (`truncdiv` of R13), wrapped. -/
def aluDiv (c : Config) (a b : Int) : Int := wrap c (Int.tdiv a b)

end Sys2Proof.Machine
end

