-- ==== Sys2Proof/Machine/State.lean ====
section
/-! DEFINITION. The machine's state as plain data (10_state.md), the events of its channels (00_scope.md section 4), the
reasons a step can stop, and the state right after reset. -/

namespace Sys2Proof.Machine

/-- A command token or word: its characters (R8). -/
abbrev Token := List Char

/-- Memory (R29): the words that are not what an unlisted address reads as, with their addresses, addresses strictly rising.
A cell is a whole word, the smallest unit the machine has (R52; log 8). -/
abbrev Memory := List (Nat × Int)

/-- What an address that `Memory` does not list reads as: the zero-fill of R36 (90_conflicts.md C3). -/
def Memory.unlisted : Int := 0

/-- The canonical form: addresses strictly rising and no entry that holds what an unlisted address reads as. -/
def Memory.wf : Memory → Bool
  | [] => true
  | (a, v) :: m => v != Memory.unlisted && m.all (fun c => decide (a < c.1)) && Memory.wf m

/-- The kind of an access the address decoder refused (R50). -/
inductive AccessKind where
  | fetch
  | read
  | write
  deriving DecidableEq, Repr

/-- An execution fault with its fields (R260). It is an outcome of a step of the engine, not a stop of the model: the
session takes it (R206, R207). -/
inductive ExecFault where
  /-- Code 1: the opcode word read and its address. -/
  | invalidOpcode (tag addr : Int)
  /-- Code 2: the offending address and the access that used it. -/
  | memOutOfRange (addr : Int) (kind : AccessKind)
  /-- Code 3: the operand word and its address. -/
  | badRegister (index addr : Int)
  /-- Code 4: the address of the IDIV. -/
  | divideByZero (addr : Int)
  /-- Code 5: the address of the IDIV. -/
  | divideOverflow (addr : Int)
  deriving DecidableEq, Repr

/-- The eleven debugger commands (R210). -/
inductive Command where
  | help
  | quit
  | list
  | print
  | examine
  | frame
  | step
  | cont
  | restart
  | breakAt
  | delete
  deriving DecidableEq, Repr

/-- What the command decoder answers (R210). -/
inductive Decoded where
  | command (c : Command)
  | noMatch
  | ambiguous
  deriving DecidableEq, Repr

/-- The errors local to one command (R10). -/
inductive CmdError where
  | missingArgument
  | badRegisterName (token : Token)
  | addressRequired
  | malformedAddress (token : Token)
  | addressOutOfRange (addr : Int)
  | noBreakpointSet
  deriving DecidableEq, Repr

/-- Why the Program Loader could not deliver an image (R7, R302). -/
inductive LoadErrorKind where
  | missingFile
  | negativeCount
  | truncated (found : Nat)
  | badToken (index : Nat)
  | imageTooLarge (n : Nat)
  deriving DecidableEq, Repr

/-- An answer of the Program Loader (R7). -/
inductive LoadResult where
  | ok (image : List Int)
  | err (kind : LoadErrorKind)
  deriving DecidableEq, Repr

/-- The words of an answer: none where it is an error (R7). -/
def LoadResult.words : LoadResult → List Int
  | .ok image => image
  | .err _ => []

/-- A transaction of `cmd_in` (R8). -/
inductive CmdIn where
  | line (word : Token) (arg : Option Token)
  | endOfInput
  deriving DecidableEq, Repr

/-- An event of `diag_out` (R10). -/
inductive DiagEvent where
  | prompt (ip : Int)
  | breakpointHit (ip : Int)
  | faultReport (fault : ExecFault)
  | helpText
  | notImplemented (cmd : Command)
  | printResult (index : Reg) (value : Int)
  | examineResult (addr : Int) (value : Int)
  | cmdError (err : CmdError)
  | loadError (kind : LoadErrorKind)
  deriving DecidableEq, Repr

/-- The block status (R32). -/
inductive Status where
  | running
  | exited (code : Int)
  deriving DecidableEq, Repr

/-- What the block is blocked on between two steps of the model: nothing, a command line (R202, R275), or the Program
Loader's answer (R7, R300). -/
inductive Wait where
  | nothing
  | command
  | loader
  deriving DecidableEq, Repr

/-- Everything the spec gives the machine. -/
structure State where
  /-- The parameters of R5; no step changes them (log 2). -/
  cfg : Config
  /-- The register file (R20), each register a word of WORD_BITS bits (log 1); IP, RP, FP and SP are registers 0, 29, 30 and 31 of it (R21). -/
  regs : Vector Int 32
  /-- Memory (R29). -/
  mem : Memory
  /-- Session state: debug mode is on (R31). -/
  debugEnabled : Bool
  /-- Session state: the session is paused (R31). -/
  paused : Bool
  /-- Session state: the breakpoint, if one is set (R31). -/
  breakpoint : Option Int
  /-- The block status, with the exit code once `exit_out` has fired (R11, R32). -/
  status : Status
  /-- The words written to `data_out`, oldest first (R9, R34). -/
  dataOut : List Int
  /-- The events written to `diag_out`, oldest first (R10, R34). -/
  diagOut : List DiagEvent
  /-- Transactions of `cmd_in` sent and not yet received, oldest first (R8; log 7). -/
  cmdIn : List CmdIn
  /-- Loader answers sent and not yet taken, oldest first (R7; log 5). -/
  loaderIn : List LoadResult
  /-- What the block is blocked on (log 5, log 7). -/
  wait : Wait
  deriving DecidableEq, Repr

/-- The outcome of one step of the Execution Engine (R90), with the working copy of R97 where there is one. -/
inductive StepOutcome where
  | continued (t : State)
  | halted (t : State)
  | faulted (f : ExecFault)
  deriving DecidableEq, Repr

/-- The reasons the model stops. -/
inductive Fault where
  /-- Raised by `step` alone, in a state whose status is Exited: `exit_out` has fired and the block takes no further
  transaction (R11, R32). Safe: the model stops where the machine has stopped (log 9). -/
  | exited (code : Int)
  deriving DecidableEq, Repr

/-- The reasons the model refuses. -/
inductive Refusal where
  /-- Raised by `exec` for an instruction that has no meaning yet. Safe. No arm of this model raises it. -/
  | notModelled (mnemonic : String)
  deriving DecidableEq, Repr

/-- The block right after reset (R36, R300 steps 1 and 2): `cfg_debug_enable` is sampled, the load request is issued and its
answer is awaited. The snapshot is all zero until the loader's answer replaces it (DESIGN CHOICE, log 4: R36 gives the values
after the load). -/
def State.resetWith (cfg : Config) (debugEnable : Bool) : State where
  cfg := cfg
  regs := Vector.replicate 32 0
  mem := []
  debugEnabled := debugEnable
  paused := debugEnable
  breakpoint := none
  status := .running
  dataOut := []
  diagOut := []
  cmdIn := []
  loaderIn := []
  wait := .loader

/-- The machine right after reset at the parameters of R5, started without the optional debug-enable flag
(DESIGN CHOICE, log 3). -/
def State.reset : State := State.resetWith Config.standard false

end Sys2Proof.Machine
end

