-- ==== Sys2Proof/Machine/Ops.lean ====
section
/-! DEFINITION. The named operations over registers, memory, channels and status; taking an execution fault; committing a
step; loading an image. -/

namespace Sys2Proof.Machine

/-- `x[r]` (R13). -/
def State.reg (s : State) (r : Reg) : Int := s.regs[r]

/-- `x[r] <- v` (R13). No register is hard-wired or read-only (R22). -/
def State.setReg (s : State) (r : Reg) (v : Int) : State := { s with regs := s.regs.set r.val v r.isLt }

/-- The program counter is register 0 (R25). -/
def State.ip (s : State) : Int := s.reg Reg.ip

/-- The word at an address; an unlisted one reads as zero-fill (R36, R56). -/
def Memory.read : Memory → Nat → Int
  | [], _ => Memory.unlisted
  | (b, w) :: m, a => if a = b then w else Memory.read m a

/-- Put a word at an address, keeping the canonical form. -/
def Memory.write : Memory → Nat → Int → Memory
  | [], a, v => if v = Memory.unlisted then [] else [(a, v)]
  | (b, w) :: m, a, v =>
    if a < b then (if v = Memory.unlisted then (b, w) :: m else (a, v) :: (b, w) :: m)
    else if a = b then (if v = Memory.unlisted then m else (a, v) :: m)
    else (b, w) :: Memory.write m a v

/-- The words of an image from address `a` on, in canonical form. -/
def Memory.ofImage (a : Nat) : List Int → Memory
  | [] => []
  | v :: vs => if v = Memory.unlisted then Memory.ofImage (a + 1) vs else (a, v) :: Memory.ofImage (a + 1) vs

/-- The address decoder's verdict (R50): `0 <= a < MEM_WORDS`. -/
def inRange (c : Config) (a : Int) : Bool := decide (0 ≤ a ∧ a < c.memWords)

/-- The memory key of an address value the decoder accepts. -/
def addrOf (a : Int) : Nat := a.toNat

/-- `MemRead(a, 1)` after the address decoder has accepted `a` (R13). -/
def State.memRead (s : State) (a : Int) : Int := s.mem.read (addrOf a)

/-- `MemWrite(a, 1, v)` after the address decoder has accepted `a` (R13). -/
def State.memWrite (s : State) (a v : Int) : State := { s with mem := s.mem.write (addrOf a) v }

/-- `emit data(v)` (R13). -/
def State.emitData (s : State) (v : Int) : State := { s with dataOut := s.dataOut ++ [v] }

/-- `emit diag(e)` (R13). -/
def State.emitDiag (s : State) (e : DiagEvent) : State := { s with diagOut := s.diagOut ++ [e] }

/-- `exit(c)`: fire `exit_out` (R11, R13). -/
def State.exit (s : State) (c : Int) : State := { s with status := .exited c }

/-- The advance of the working copy: `x[IP] <- ip + len(tag)` (R93). The sum stays a word after a fetch (R26). -/
def State.advance (s : State) (f : Format) : State := s.setReg Reg.ip (s.ip + f.length)

/-- The numeric code of a fault (R260, decision D6): a label. -/
def faultCode : ExecFault → Nat
  | .invalidOpcode _ _ => 1
  | .memOutOfRange _ _ => 2
  | .badRegister _ _ => 3
  | .divideByZero _ => 4
  | .divideOverflow _ => 5

/-- Taking an execution fault (R200 `run_engine`, R206, R207): report it, then pause the session in debug mode or end the run
outside it. The snapshot stays as it was at the fault (R96). -/
def takeFault (f : ExecFault) (s : State) : State :=
  let t := s.emitDiag (.faultReport f)
  if t.debugEnabled then { t with paused := true } else t.exit t.cfg.exitFailure

/-- What the session makes of a step's outcome (R97, R98, R200 `run_engine`); `s` is the state before the step. -/
def settle (s : State) : StepOutcome → State
  | .continued t => t
  | .halted t => t.exit exitOk
  | .faulted f => takeFault f s

/-- A step's outcome as the model's: always a next state. -/
def commit (s : State) (o : StepOutcome) : Host.Outcome State Fault Refusal := .next (settle s o)

/-- A data read through the address decoder (R50): the word goes to `k`, or `MemOutOfRange(a, Read)` is raised. -/
def withRead (w : State) (a : Int) (k : Int → StepOutcome) : StepOutcome :=
  if inRange w.cfg a then k (w.memRead a) else .faulted (.memOutOfRange a .read)

/-- A data write through the address decoder (R50): the written copy goes to `k`, or `MemOutOfRange(a, Write)` is raised. -/
def withWrite (w : State) (a v : Int) (k : State → StepOutcome) : StepOutcome :=
  if inRange w.cfg a then k (w.memWrite a v) else .faulted (.memOutOfRange a .write)

/-- The register file `Load` makes for an image of `n` words: FP and SP hold `n`, every other register 0 (R301). -/
def loadedRegs (n : Nat) : Vector Int 32 :=
  ((Vector.replicate 32 0).set Reg.fp.val ((n : Int)) Reg.fp.isLt).set Reg.sp.val ((n : Int))
    Reg.sp.isLt

/-- `Load(image)` (R301): the whole Machine Snapshot anew. -/
def State.load (s : State) (image : List Int) : State :=
  { s with regs := loadedRegs image.length, mem := Memory.ofImage 0 image, wait := .nothing }

/-- A failed load (R302): report it and end the run. DESIGN CHOICE (log 15): registers, memory and session state are left as
they were in the exited state, of which R305 says nothing; no step reads them. -/
def State.loadFailed (s : State) (k : LoadErrorKind) : State :=
  State.exit { s.emitDiag (.loadError k) with wait := .nothing } s.cfg.exitFailure

/-- An image that does not fit is the load error `ImageTooLarge` (R7, decision D13; DEDUCED, log 6). -/
def checkedAnswer (c : Config) : LoadResult → LoadResult
  | .ok image => if image.length ≤ c.memWords then .ok image else .err (.imageTooLarge image.length)
  | .err k => .err k

/-- What a load request makes of the loader's answer (R228, R300, R302). -/
def State.takeAnswer (s : State) (r : LoadResult) : State :=
  match checkedAnswer s.cfg r with
  | .ok image => s.load image
  | .err k => s.loadFailed k

/-- The load request of reset and `restart` (R7, R228, R300): the oldest answer is taken; while there is none the block waits
(DESIGN CHOICE, log 5). -/
def requestLoader (s : State) : State :=
  match s.loaderIn with
  | [] => { s with wait := .loader }
  | r :: rest => { s with loaderIn := rest }.takeAnswer r

end Sys2Proof.Machine
end

