-- ==== Sys2Proof/Machine/Operands.lean ====
section
/-! DEFINITION. The effective addresses of the three addressing modes (R170). Every operand of the other forms is a whole
register or a whole immediate word (R73, R74) and needs no computation. -/

namespace Sys2Proof.Machine

/-- Register indirect: `x[ra]` (LD, ST). -/
def eaReg (w : State) (ra : Reg) : Int := w.reg ra

/-- Stack, PUSH: `x[SP]`. -/
def eaPush (w : State) : Int := w.reg Reg.sp

/-- Stack, POP: `wrap(x[SP] - 1)`. -/
def eaPop (w : State) : Int := aluSub w.cfg (w.reg Reg.sp) 1

/-- Frame plus immediate: `wrap(x[FP] + imm)` (LDLO, STLO). -/
def eaFrame (w : State) (imm : Int) : Int := aluAdd w.cfg (w.reg Reg.fp) imm

end Sys2Proof.Machine
end

