-- ==== Sys2Proof/Machine/Arith.lean ====
section
/-! DEFINITION. Arithmetic: ADD, SUB, MUL, IDIV (42_alu.md section 2). The destination is the second operand. -/

namespace Sys2Proof.Machine

/-- ADD (R125). -/
def execAdd (rs rd : Reg) (s : State) : Host.Outcome State Fault Refusal :=
  let w := s.advance .f2rr
  commit s (.continued (w.setReg rd (aluAdd w.cfg (w.reg rd) (w.reg rs))))

/-- SUB (R126). -/
def execSub (rs rd : Reg) (s : State) : Host.Outcome State Fault Refusal :=
  let w := s.advance .f2rr
  commit s (.continued (w.setReg rd (aluSub w.cfg (w.reg rd) (w.reg rs))))

/-- MUL (R127). -/
def execMul (rs rd : Reg) (s : State) : Host.Outcome State Fault Refusal :=
  let w := s.advance .f2rr
  commit s (.continued (w.setReg rd (aluMul w.cfg (w.reg rd) (w.reg rs))))

/-- IDIV (R128). The faults name the address of the IDIV, the IP before the advance. -/
def execIdiv (rs rd : Reg) (s : State) : Host.Outcome State Fault Refusal :=
  let w := s.advance .f2rr
  commit s
    (if w.reg rs = 0 then .faulted (.divideByZero s.ip)
     else if w.cfg.idivMinNeg1 = .fault ∧ w.reg rd = minWord w.cfg ∧ w.reg rs = -1 then .faulted (.divideOverflow s.ip)
     else .continued (w.setReg rd (aluDiv w.cfg (w.reg rd) (w.reg rs))))

end Sys2Proof.Machine
end

