-- ==== Sys2Proof/Machine/Flags.lean ====
section
/-! DEFINITION. The machine has no flags, condition codes or predicate registers (R27); the one condition is the zero test of
JNZ. -/

namespace Sys2Proof.Machine

/-- The zero test (R124): true for every word but 0. -/
def aluNz (v : Int) : Bool := decide (v ≠ 0)

end Sys2Proof.Machine
end

