-- ==== Sys2Proof/Machine/Control.lean ====
section
/-! DEFINITION. Control transfer: JMP, JNZ, HALT, JAL, RET (43_control.md). -/

namespace Sys2Proof.Machine

/-- JMP (R140). -/
def execJmp (ra : Reg) (s : State) : Host.Outcome State Fault Refusal :=
  let w := s.advance .f1r
  commit s (.continued (w.setReg Reg.ip (w.reg ra)))

/-- JNZ (R141). -/
def execJnz (rs ra : Reg) (s : State) : Host.Outcome State Fault Refusal :=
  let w := s.advance .f2rr
  commit s (.continued (if aluNz (w.reg rs) then w.setReg Reg.ip (w.reg ra) else w))

/-- HALT (R142): the step returns Halt, and the session exits with EXIT_OK (R205). -/
def execHalt (s : State) : Host.Outcome State Fault Refusal :=
  commit s (.halted (s.advance .f0))

/-- JAL (R143): the target is read after RP is written. -/
def execJal (ra : Reg) (s : State) : Host.Outcome State Fault Refusal :=
  let w := s.advance .f1r
  let w' := w.setReg Reg.rp w.ip
  commit s (.continued (w'.setReg Reg.ip (w'.reg ra)))

/-- RET (R144). -/
def execRet (s : State) : Host.Outcome State Fault Refusal :=
  let w := s.advance .f0
  commit s (.continued (w.setReg Reg.ip (w.reg Reg.rp)))

end Sys2Proof.Machine
end

