-- ==== Sys2Proof/Machine/LoadStore.lean ====
section
/-! DEFINITION. Loads, stores and the stack: LD, ST, PUSH, POP, LDLO, STLO (45_loadstore.md). -/

namespace Sys2Proof.Machine

/-- LD (R171). -/
def execLd (ra rd : Reg) (s : State) : Host.Outcome State Fault Refusal :=
  let w := s.advance .f2rr
  commit s (withRead w (eaReg w ra) fun v => .continued (w.setReg rd v))

/-- ST (R172). -/
def execSt (ra rs : Reg) (s : State) : Host.Outcome State Fault Refusal :=
  let w := s.advance .f2rr
  commit s (withWrite w (eaReg w ra) (w.reg rs) fun t => .continued t)

/-- PUSH (R173): `a + 1` does not wrap, since `a` is in range. -/
def execPush (rs : Reg) (s : State) : Host.Outcome State Fault Refusal :=
  let w := s.advance .f1r
  let a := eaPush w
  commit s (withWrite w a (w.reg rs) fun t => .continued (t.setReg Reg.sp (a + 1)))

/-- POP (R174): SP is written before `rd`, so a POP into SP leaves the popped word there. -/
def execPop (rd : Reg) (s : State) : Host.Outcome State Fault Refusal :=
  let w := s.advance .f1r
  let a := eaPop w
  commit s (withRead w a fun v => .continued ((w.setReg Reg.sp a).setReg rd v))

/-- LDLO (R175). -/
def execLdlo (imm : Int) (rd : Reg) (s : State) : Host.Outcome State Fault Refusal :=
  let w := s.advance .f2ir
  commit s (withRead w (eaFrame w imm) fun v => .continued (w.setReg rd v))

/-- STLO (R176). -/
def execStlo (imm : Int) (rs : Reg) (s : State) : Host.Outcome State Fault Refusal :=
  let w := s.advance .f2ir
  commit s (withWrite w (eaFrame w imm) (w.reg rs) fun t => .continued t)

end Sys2Proof.Machine
end

