-- ==== Sys2Proof/Machine/Move.lean ====
section
/-! DEFINITION. Data movement: MOVI, MOV (41_move.md). A meaning works on a copy whose IP is already advanced (R93, R94). -/

namespace Sys2Proof.Machine

/-- MOVI (R110). -/
def execMovi (imm : Int) (rd : Reg) (s : State) : Host.Outcome State Fault Refusal :=
  let w := s.advance .f2ir
  commit s (.continued (w.setReg rd imm))

/-- MOV (R111). -/
def execMov (rs rd : Reg) (s : State) : Host.Outcome State Fault Refusal :=
  let w := s.advance .f2rr
  commit s (.continued (w.setReg rd (w.reg rs)))

end Sys2Proof.Machine
end

