-- ==== Sys2Proof/Machine/Output.lean ====
section
/-! DEFINITION. Output: OUT (44_output.md). -/

namespace Sys2Proof.Machine

/-- OUT (R160): the word is appended to `data_out` at commit (R97). -/
def execOut (rs : Reg) (s : State) : Host.Outcome State Fault Refusal :=
  let w := s.advance .f1r
  commit s (.continued (w.emitData (w.reg rs)))

end Sys2Proof.Machine
end

