-- ==== Sys2Proof/Machine/Dispatch.lean ====
section
/-! DEFINITION. The execute part of a step with what the session makes of its outcome (R95, R97, R98), one arm per
instruction. The state is the one before the step: IP is the address of the opcode word. -/

namespace Sys2Proof.Machine

def exec (i : Instr) (s : State) : Host.Outcome State Fault Refusal :=
  match i with
  | .movi imm rd => Sys2Proof.Machine.execMovi imm rd s
  | .mov rs rd => Sys2Proof.Machine.execMov rs rd s
  | .add rs rd => Sys2Proof.Machine.execAdd rs rd s
  | .sub rs rd => Sys2Proof.Machine.execSub rs rd s
  | .mul rs rd => Sys2Proof.Machine.execMul rs rd s
  | .idiv rs rd => Sys2Proof.Machine.execIdiv rs rd s
  | .jmp ra => Sys2Proof.Machine.execJmp ra s
  | .jnz rs ra => Sys2Proof.Machine.execJnz rs ra s
  | .out rs => Sys2Proof.Machine.execOut rs s
  | .halt => Sys2Proof.Machine.execHalt s
  | .ld ra rd => Sys2Proof.Machine.execLd ra rd s
  | .st ra rs => Sys2Proof.Machine.execSt ra rs s
  | .jal ra => Sys2Proof.Machine.execJal ra s
  | .ret => Sys2Proof.Machine.execRet s
  | .push rs => Sys2Proof.Machine.execPush rs s
  | .pop rd => Sys2Proof.Machine.execPop rd s
  | .ldlo imm rd => Sys2Proof.Machine.execLdlo imm rd s
  | .stlo imm rs => Sys2Proof.Machine.execStlo imm rs s

end Sys2Proof.Machine
end

