-- ==== Sys2Proof/Machine/Engine.lean ====
section
/-! DEFINITION. Fetching and decoding at IP, and one run of the Execution Engine (R90 to R93, R98, `run_engine` of R200). -/

namespace Sys2Proof.Machine

/-- At most `n` words from address `a` on, up to the first address the decoder refuses (R91, R93). -/
def fetchWindow (c : Config) (m : Memory) : Int → Nat → List Int
  | _, 0 => []
  | a, n + 1 => if inRange c a then m.read (addrOf a) :: fetchWindow c m (a + 1) n else []

/-- The words the instruction at IP can consist of: at most three (R71). -/
def State.fetched (s : State) : List Int := fetchWindow s.cfg s.mem s.ip 3

/-- The execution fault of a decode error at address `ip` (R91, R92, R93). -/
def fetchFault (ip : Int) : DecodeError → ExecFault
  | .missing k => .memOutOfRange (ip + k) .fetch
  | .invalidOpcode tag => .invalidOpcode tag ip
  | .badRegister k w => .badRegister w (ip + k)

/-- `run_engine` of R200: one step of the engine and what the session makes of its outcome. -/
def runEngine (s : State) : Host.Outcome State Fault Refusal :=
  match decode s.fetched with
  | .ok (i, _) => exec i s
  | .error e => commit s (.faulted (fetchFault s.ip e))

/-- Put words at rising addresses from `a` on, where memory has them. -/
def placeWords (c : Config) (m : Memory) (a : Nat) : List Int → Memory
  | [] => m
  | v :: vs => placeWords c (if a < c.memWords then m.write a v else m) (a + 1) vs

/-- Where a program's next instruction of up to three words can be placed: at IP if three words fit there, else at the entry
point 0 (R57). -/
def placeAddress (s : State) : Int :=
  if inRange s.cfg s.ip ∧ inRange s.cfg (s.ip + 2) then s.ip else 0

/-- The state in which the next iteration fetches and runs the instruction with those bits, without a pause (log 11). -/
def placeInstruction (s : State) (nbits w : Nat) : State :=
  let a := placeAddress s
  { s.setReg Reg.ip a with
    mem := placeWords s.cfg s.mem (addrOf a) (tableWords nbits w)
    status := .running
    wait := .nothing
    paused := false
    breakpoint := if s.breakpoint = some a then none else s.breakpoint }

end Sys2Proof.Machine
end

