-- ==== Sys2Proof/Machine/Resolver.lean ====
section
/-! DEFINITION. The command decoder and the Address/Register Resolver (46_debugger.md sections 2 and 3). -/

namespace Sys2Proof.Machine

/-- `lowercase` of R211 and R214, on the letters A to Z; other characters are left as they are (PRESUMED, log 12). -/
def lowercase (t : Token) : Token := t.map Char.toLower

/-- The word of a command (R210). -/
def commandWord : Command → Token
  | .help => ['h', 'e', 'l', 'p']
  | .quit => ['q', 'u', 'i', 't']
  | .list => ['l', 'i', 's', 't']
  | .print => ['p', 'r', 'i', 'n', 't']
  | .examine => ['e', 'x', 'a', 'm', 'i', 'n', 'e']
  | .frame => ['f', 'r', 'a', 'm', 'e']
  | .step => ['s', 't', 'e', 'p']
  | .cont => ['c', 'o', 'n', 't', 'i', 'n', 'u', 'e']
  | .restart => ['r', 'e', 's', 't', 'a', 'r', 't']
  | .breakAt => ['b', 'r', 'e', 'a', 'k']
  | .delete => ['d', 'e', 'l', 'e', 't', 'e']

/-- The command vocabulary (R210). -/
def vocabulary : List Command :=
  [.help, .quit, .list, .print, .examine, .frame, .step, .cont, .restart, .breakAt, .delete]

/-- `decode_command` (R211): `x` exactly, else an unambiguous case-insensitive prefix. -/
def decodeCommand (word : Token) : Decoded :=
  let t := lowercase word
  if t = ['x'] then .command .examine
  else
    match vocabulary.filter (fun v => t.isPrefixOf (commandWord v)) with
    | [] => .noMatch
    | [v] => .command v
    | _ :: _ :: _ => .ambiguous

/-- A digit `0` to `9` (R214, R215). -/
def isDecimalDigit (c : Char) : Bool := decide ('0'.toNat ≤ c.toNat ∧ c.toNat ≤ '9'.toNat)

/-- The base-10 value of a string of digits, without bound (R214, R215). -/
def decimalValue (t : Token) : Nat := t.foldl (fun n c => 10 * n + (c.toNat - '0'.toNat)) 0

/-- `resolve_register` (R214). -/
def resolveRegister (token : Token) : Option Reg :=
  let t := lowercase token
  if t = ['i', 'p'] then some Reg.ip
  else if t = ['r', 'p'] then some Reg.rp
  else if t = ['f', 'p'] then some Reg.fp
  else if t = ['s', 'p'] then some Reg.sp
  else
    match t with
    | 'r' :: d :: ds =>
      if (d :: ds).all isDecimalDigit then
        if h : decimalValue (d :: ds) < 32 then some ⟨decimalValue (d :: ds), h⟩ else none
      else none
    | _ => none

/-- `parse_literal` (R215). -/
def parseLiteral (token : Token) : Option Nat :=
  if token ≠ [] ∧ token.all isDecimalDigit then some (decimalValue token) else none

/-- The bounds check of R216 on a resolved address (R51). -/
def checkAddress (c : Config) (a : Int) : Except CmdError Int :=
  if inRange c a then .ok a else .error (.addressOutOfRange a)

/-- `resolve_address` (R216): a register's current value first, then a decimal literal. -/
def resolveAddress (token : Token) (s : State) : Except CmdError Int :=
  match token with
  | [] => .error .addressRequired
  | c :: cs =>
    match resolveRegister (c :: cs) with
    | some i => checkAddress s.cfg (s.reg i)
    | none =>
      if isDecimalDigit c then
        match parseLiteral (c :: cs) with
        | some n => checkAddress s.cfg (n : Int)
        | none => .error (.malformedAddress (c :: cs))
      else .error (.malformedAddress (c :: cs))

/-- The digits of a register number below 100, without leading zeros. -/
def registerDigits (n : Nat) : Token :=
  if n < 10 then [Char.ofNat (48 + n)] else [Char.ofNat (48 + n / 10), Char.ofNat (48 + n % 10)]

/-- The name `print` shows for a register (R223, decision D23). -/
def registerName (i : Reg) : Token :=
  if i = Reg.ip then ['i', 'p']
  else if i = Reg.rp then ['r', 'p']
  else if i = Reg.fp then ['f', 'p']
  else if i = Reg.sp then ['s', 'p']
  else 'r' :: registerDigits i.val

end Sys2Proof.Machine
end

