-- ==== Sys2Proof/Machine/Session.lean ====
section
/-! DEFINITION. The Debugger Session: the commands, the session iteration and the block's step (46_debugger.md sections 1
and 4), and the two inputs the environment gives (00_scope.md R7, R8). -/

namespace Sys2Proof.Machine

/-- `print R` (R223). -/
def cmdPrint (arg : Option Token) (s : State) : State :=
  match arg with
  | none => s.emitDiag (.cmdError .missingArgument)
  | some t =>
    match resolveRegister t with
    | some i => s.emitDiag (.printResult i (s.reg i))
    | none => s.emitDiag (.cmdError (.badRegisterName t))

/-- `x A`, `examine A` (R224): a missing argument is the empty token. -/
def cmdExamine (arg : Option Token) (s : State) : State :=
  match resolveAddress (arg.getD []) s with
  | .ok a => s.emitDiag (.examineResult a (s.memRead a))
  | .error e => s.emitDiag (.cmdError e)

/-- `break [A]` (R229). -/
def cmdBreak (arg : Option Token) (s : State) : State :=
  match arg with
  | none => { s with breakpoint := some s.ip }
  | some t =>
    match resolveAddress t s with
    | .ok a => { s with breakpoint := some a }
    | .error e => s.emitDiag (.cmdError e)

/-- `delete` (R230). -/
def cmdDelete (s : State) : State :=
  match s.breakpoint with
  | none => s.emitDiag (.cmdError .noBreakpointSet)
  | some _ => { s with breakpoint := none }

/-- Command dispatch (R220 to R230). -/
def runCommand (c : Command) (arg : Option Token) (s : State) : Host.Outcome State Fault Refusal :=
  match c with
  | .help => .next (s.emitDiag .helpText)
  | .quit => .next (s.exit exitOk)
  | .list => .next (s.emitDiag (.notImplemented .list))
  | .print => .next (cmdPrint arg s)
  | .examine => .next (cmdExamine arg s)
  | .frame => .next (s.emitDiag (.notImplemented .frame))
  | .step => runEngine s
  | .cont => runEngine { s with paused := false }
  | .restart => .next (requestLoader s)
  | .breakAt => .next (cmdBreak arg s)
  | .delete => .next (cmdDelete s)

/-- What the session does with a received command line; no match and an ambiguous word do nothing (R213). -/
def dispatchLine (word : Token) (arg : Option Token) (s : State) : Host.Outcome State Fault Refusal :=
  match decodeCommand word with
  | .command c => runCommand c arg s
  | .noMatch => .next s
  | .ambiguous => .next s

/-- What the session does with a received transaction (R200, R203). -/
def handleInput (c : CmdIn) (s : State) : Host.Outcome State Fault Refusal :=
  match c with
  | .endOfInput => runEngine { s with debugEnabled := false, paused := false }
  | .line word arg => dispatchLine word arg s

/-- `receive cmd_in` (R202): the oldest transaction is received; while there is none the block waits (log 7). -/
def receiveCommand (s : State) : Host.Outcome State Fault Refusal :=
  match s.cmdIn with
  | [] => .next { s with wait := .command }
  | c :: rest => handleInput c { s with cmdIn := rest, wait := .nothing }

/-- The breakpoint check (R201). -/
def breakpointCheck (s : State) : State :=
  if s.debugEnabled ∧ ¬ s.paused ∧ s.breakpoint = some s.ip then
    { s with paused := true }.emitDiag (.breakpointHit s.ip)
  else s

/-- One session iteration (R200). -/
def iteration (s : State) : Host.Outcome State Fault Refusal :=
  let t := breakpointCheck s
  if t.debugEnabled ∧ t.paused then receiveCommand (t.emitDiag (.prompt t.ip)) else runEngine t

/-- One step of the model: a session iteration, or its rest once the input it waits for is there (R200, R202, R300; log 10).
After `exit_out` has fired there is no further step (R11). -/
def blockStep (s : State) : Host.Outcome State Fault Refusal :=
  match s.status with
  | .exited c => .fault (.exited c)
  | .running =>
    match s.wait with
    | .loader => .next (requestLoader s)
    | .command => receiveCommand s
    | .nothing => iteration s

/-- The environment sends a `cmd_in` transaction (R8). -/
def State.offerCommand (s : State) (c : CmdIn) : State := { s with cmdIn := s.cmdIn ++ [c] }

/-- The Program Loader gives an answer (R7). -/
def State.offerLoad (s : State) (r : LoadResult) : State := { s with loaderIn := s.loaderIn ++ [r] }

end Sys2Proof.Machine
end

