-- ==== Sys2Proof/Machine/Step.lean ====
section
/-! DEFINITION. The machine's step and the placing of an instruction where the next step fetches it. -/

namespace Sys2Proof.Machine

/-- One step of the block (R200). -/
def step (s : State) : Host.Outcome State Fault Refusal := blockStep s

/-- The state with an instruction stored where `step` fetches its next one, so that the very next step runs it (log 11). -/
def State.withFetchWord (s : State) (nbits w : Nat) : State := placeInstruction s nbits w

end Sys2Proof.Machine
end

