-- ==== Sys2Proof/Safety.lean ====
section
/-! DEFINITION. The terms the claims use: what may stay unchanged, what taking a fault does, when the next step is a free
step or receives a command, the invariant of a sound state, and the fetch loop of R99 written out as the spec writes it. -/

namespace Sys2Proof.Machine

/-- What a read of register `r` returns during the effect of an instruction of `n` words that has written nothing yet (R94):
IP is already advanced. -/
def readDuring (s : State) (n : Nat) (r : Reg) : Int := if r = Reg.ip then s.ip + n else s.reg r

/-- `result` is the word that R13's `wrap` makes of `exact`: a word, congruent to it modulo `2^WORD_BITS`, equal to it where that
is a word, and its low WORD_BITS bits read as two's complement. -/
def Narrowed (c : Config) (exact result : Int) : Prop :=
  c.IsWord result ∧ (∃ k : Int, result = exact + k * 2 ^ c.wordBits) ∧ (c.IsWord exact → result = exact) ∧
    result = (BitVec.ofInt c.wordBits exact).toInt

/-- Every memory word reads as before. -/
def SameMemory (s t : State) : Prop := ∀ a, t.mem.read a = s.mem.read a

/-- The Machine Snapshot (R30) reads as before. -/
def SameSnapshot (s t : State) : Prop := (∀ r, t.reg r = s.reg r) ∧ SameMemory s t

/-- What neither an instruction's effect nor a fault changes: the parameters, debug mode, the breakpoint, the inputs not yet
taken and what the block waits for. -/
def SameSetting (s t : State) : Prop :=
  t.cfg = s.cfg ∧ t.debugEnabled = s.debugEnabled ∧ t.breakpoint = s.breakpoint ∧ t.cmdIn = s.cmdIn ∧
    t.loaderIn = s.loaderIn ∧ t.wait = s.wait

/-- The session state and the diagnostic channel as before (R27, R28: no instruction reaches them). -/
def SameSession (s t : State) : Prop := SameSetting s t ∧ t.paused = s.paused ∧ t.diagOut = s.diagOut

/-- Nothing but registers may have changed. -/
def OnlyRegisters (s t : State) : Prop :=
  SameMemory s t ∧ t.dataOut = s.dataOut ∧ t.status = s.status ∧ SameSession s t

/-- Nothing but registers and the one memory word at `a` may have changed. -/
def OnlyRegistersAndWord (a : Nat) (s t : State) : Prop :=
  (∀ b, b ≠ a → t.mem.read b = s.mem.read b) ∧ t.dataOut = s.dataOut ∧ t.status = s.status ∧ SameSession s t

/-- `t` is `s` after the execution fault `f` was taken: snapshot and program output unchanged (R96), the fault reported, and
the session paused in debug mode (R206) or the run ended outside it (R207). -/
def FaultTaken (f : ExecFault) (s t : State) : Prop :=
  SameSnapshot s t ∧ SameSetting s t ∧ t.dataOut = s.dataOut ∧ t.diagOut = s.diagOut ++ [.faultReport f] ∧
    (s.debugEnabled = true → t.paused = true ∧ t.status = s.status) ∧
    (s.debugEnabled = false → t.paused = s.paused ∧ t.status = .exited s.cfg.exitFailure)

/-- An IP outside memory faults at the next run of the engine, naming that IP, and only there (R91, R145). -/
def TargetCheckedAtFetch (t : State) : Prop :=
  ¬ (0 ≤ t.ip ∧ t.ip < t.cfg.memWords) →
    ∃ u, runEngine t = .next u ∧ FaultTaken (.memOutOfRange t.ip .fetch) t u

/-- The next step of the block is one free step of the engine (R204): it runs, waits for nothing, and is outside debug mode or
neither paused nor at its breakpoint. -/
abbrev RunsFreely (s : State) : Prop :=
  s.status = .running ∧ s.wait = .nothing ∧ (s.debugEnabled = true → s.paused = false ∧ s.breakpoint ≠ some s.ip)

/-- The next step of the block begins with a breakpoint hit (R201). -/
abbrev AtBreakpoint (s : State) : Prop :=
  s.wait = .nothing ∧ s.debugEnabled = true ∧ s.paused = false ∧ s.breakpoint = some s.ip

/-- The next step of the block listens to `cmd_in` (R201, R202): the session is paused or pauses at its breakpoint, or is
already waiting for a transaction. -/
abbrev Listens (s : State) : Prop :=
  s.status = .running ∧
    ((s.wait = .nothing ∧ s.debugEnabled = true ∧ s.paused = true) ∨ AtBreakpoint s ∨ s.wait = .command)

/-- The next step of the block receives that transaction, and those are left (R202). -/
abbrev Receives (s : State) (c : CmdIn) (rest : List CmdIn) : Prop := Listens s ∧ s.cmdIn = c :: rest

/-- The breakpoint hit a step begins with, if it begins with one (R201). -/
def hitEvents (s : State) : List DiagEvent := if AtBreakpoint s then [.breakpointHit s.ip] else []

/-- The state in which the received transaction is handled: it is consumed, a breakpoint has paused the session (R201), and the
iteration's one prompt has been emitted, here or when the wait began (R202). -/
def received (s : State) (rest : List CmdIn) : State :=
  { s with
    cmdIn := rest
    wait := .nothing
    paused := s.paused || decide (AtBreakpoint s)
    diagOut := s.diagOut ++ (hitEvents s ++ if s.wait = .command then [] else [.prompt s.ip]) }

/-- `u` is the state from which the engine runs in the next step of the block, if it runs in it (R200, R203, R204, R226, R227):
the state itself in a free step, else what a received transaction makes of it. -/
def EngineRunsFrom (s u : State) : Prop :=
  (RunsFreely s ∧ u = s) ∨
    (∃ rest, Receives s .endOfInput rest ∧ u = { received s rest with debugEnabled := false, paused := false }) ∨
    ∃ w arg rest, Receives s (.line w arg) rest ∧
      ((decodeCommand w = .command .step ∧ u = received s rest) ∨
        (decodeCommand w = .command .cont ∧ u = { received s rest with paused := false }))

/-- `u` is the state from which the next step of the block requests the loader's answer, if it does (R7): after reset or while
it waits for one, the state itself (R300); at a `restart`, what receiving it makes of the state (R228). -/
def LoadRequestedFrom (s u : State) : Prop :=
  (s.status = .running ∧ s.wait = .loader ∧ u = s) ∨
    ∃ w arg rest, Receives s (.line w arg) rest ∧ decodeCommand w = .command .restart ∧ u = received s rest

/-- The snapshot reads as `Load(image)` leaves it (R301): FP and SP hold the image's length, every other register 0, memory the
image and zeros after it. -/
def FreshSnapshot (image : List Int) (t : State) : Prop :=
  (∀ r, t.reg r = if r = Reg.fp ∨ r = Reg.sp then (image.length : Int) else 0) ∧
    ∀ a, t.mem.read a = if h : a < image.length then image[a] else 0

/-- Session state, status and output histories as before (R228): what a load of the snapshot leaves alone. -/
def SameOutsideSnapshot (s t : State) : Prop :=
  t.cfg = s.cfg ∧ t.debugEnabled = s.debugEnabled ∧ t.paused = s.paused ∧ t.breakpoint = s.breakpoint ∧
    t.status = s.status ∧ t.dataOut = s.dataOut ∧ t.diagOut = s.diagOut ∧ t.cmdIn = s.cmdIn

/-- Whether a status is Running or an exit code the block can give (R11). -/
def Status.allowed (c : Config) : Status → Bool
  | .running => true
  | .exited code => decide (code = exitOk ∨ code = c.exitFailure)

/-- Every stored word is a word of WORD_BITS bits (R13, R20, R29): registers, memory, the breakpoint and program output, and
the images the loader has offered (R7, decision D33; log 1). -/
abbrev State.HoldsWords (s : State) : Prop :=
  (∀ r, s.cfg.IsWord (s.reg r)) ∧ (∀ c ∈ s.mem, s.cfg.IsWord c.2) ∧ (∀ b ∈ s.breakpoint, s.cfg.IsWord b) ∧
    (∀ v ∈ s.dataOut, s.cfg.IsWord v) ∧ ∀ a ∈ s.loaderIn, ∀ v ∈ a.words, s.cfg.IsWord v

/-- The invariant of a sound state: the parameters meet R5; every stored word is one; memory is canonical and lists only
addresses below MEM_WORDS (R29); the session is paused, and waits for a command, only in debug mode (R203, R206); an exit code
is one of R11's. -/
abbrev State.Inv (s : State) : Prop :=
  s.cfg.Valid ∧ s.HoldsWords ∧ s.mem.wf = true ∧ (∀ c ∈ s.mem, c.1 < s.cfg.memWords) ∧
    (s.paused = true → s.debugEnabled = true) ∧ (s.wait = .command → s.paused = true) ∧ s.status.allowed s.cfg = true

/-- The registers other than IP that an instruction may write (R23, R76). -/
def destinations : Instr → List Reg
  | .movi _ rd => [rd]
  | .mov _ rd => [rd]
  | .add _ rd => [rd]
  | .sub _ rd => [rd]
  | .mul _ rd => [rd]
  | .idiv _ rd => [rd]
  | .jmp _ => []
  | .jnz _ _ => []
  | .out _ => []
  | .halt => []
  | .ld _ rd => [rd]
  | .st _ _ => []
  | .jal _ => [Reg.rp]
  | .ret => []
  | .push _ => [Reg.sp]
  | .pop rd => [Reg.sp, rd]
  | .ldlo _ rd => [rd]
  | .stlo _ _ => []

/-- The address an instruction stores to, if it is one that stores (R54), from the registers it reads (R94, R170). -/
def storeAddress (s : State) : Instr → Option Int
  | .movi _ _ => none
  | .mov _ _ => none
  | .add _ _ => none
  | .sub _ _ => none
  | .mul _ _ => none
  | .idiv _ _ => none
  | .jmp _ => none
  | .jnz _ _ => none
  | .out _ => none
  | .halt => none
  | .ld _ _ => none
  | .st ra _ => some (eaReg (s.advance .f2rr) ra)
  | .jal _ => none
  | .ret => none
  | .push _ => some (eaPush (s.advance .f1r))
  | .pop _ => none
  | .ldlo _ _ => none
  | .stlo imm _ => some (eaFrame (s.advance .f2ir) imm)

/-- The faults an instruction can raise of its own, once fetched and decoded (the table of R261). -/
def mayRaise (s : State) (i : Instr) (f : ExecFault) : Prop :=
  match i with
  | .movi _ _ => False
  | .mov _ _ => False
  | .add _ _ => False
  | .sub _ _ => False
  | .mul _ _ => False
  | .idiv _ _ => f = .divideByZero s.ip ∨ (f = .divideOverflow s.ip ∧ s.cfg.idivMinNeg1 = .fault)
  | .jmp _ => False
  | .jnz _ _ => False
  | .out _ => False
  | .halt => False
  | .ld _ _ => ∃ a, f = .memOutOfRange a .read
  | .st _ _ => ∃ a, f = .memOutOfRange a .write
  | .jal _ => False
  | .ret => False
  | .push _ => ∃ a, f = .memOutOfRange a .write
  | .pop _ => ∃ a, f = .memOutOfRange a .read
  | .ldlo _ _ => ∃ a, f = .memOutOfRange a .read
  | .stlo _ _ => ∃ a, f = .memOutOfRange a .write

/-- The operand loop of R99 for the operands from offset `k` on: check the address, read the word, check a register. -/
def specOperands (s : State) : Nat → List OperandKind → Except ExecFault (List Int)
  | _, [] => .ok []
  | k, kind :: kinds =>
    let a := s.ip + k
    if ¬ (0 ≤ a ∧ a < s.cfg.memWords) then .error (.memOutOfRange a .fetch)
    else
      let w := s.mem.read (addrOf a)
      if kind = .reg ∧ ¬ (0 ≤ w ∧ w < 32) then .error (.badRegister w a)
      else
        match specOperands s (k + 1) kinds with
        | .error f => .error f
        | .ok ws => .ok (w :: ws)

/-- Fetch and decode as R99 writes them: the words of the instruction at IP, or the first fault met. -/
def specFetch (s : State) : Except ExecFault (List Int) :=
  if ¬ (0 ≤ s.ip ∧ s.ip < s.cfg.memWords) then .error (.memOutOfRange s.ip .fetch)
  else
    let tag := s.mem.read (addrOf s.ip)
    if tag < 1 ∨ 18 < tag then .error (.invalidOpcode tag s.ip)
    else
      match formatOfTag tag with
      | none => .error (.invalidOpcode tag s.ip)
      | some f =>
        match specOperands s 1 f.operands with
        | .error e => .error e
        | .ok ws => .ok (tag :: ws)

end Sys2Proof.Machine
end

