-- ==== Sys2Proof/Certificates/Slice0/Obligations.lean ====
section
/-! DEFINITION. The statements for the provers, from the numbered rules of spec/. Where a clause rests on a decision the spec
marks as its own (D<n>) or on a log entry, the docstring says so. "Register 0 reads as the advanced IP and a write to it is a
jump" (R94) is the spec's decision D3 wherever `readDuring` occurs. -/

open Sys2Proof Sys2Proof.Machine

/-! ### Encoding -/

/-- Decoding an instruction's words gives it back and leaves the words after it (R71, R76). The operand order is the spec's
decision D24. -/
def Obligations.DecodeOfEncodeIsIdentity : Prop :=
  ∀ (i : Instr) (rest : List Int), decode (encode i ++ rest) = .ok (i, rest) ∧ (encode i).length = i.length

/-- What decodes is an encoding, so no two word sequences are one instruction (R71, R76); and exactly the words with a legal
tag, that format's number of operand words and register operands in 0 to 31 are an instruction (R73, R74, R78). -/
def Obligations.DecodesExactlyTheWellFormedWords : Prop :=
  (∀ (ws rest : List Int) (i : Instr), decode ws = .ok (i, rest) → ws = encode i ++ rest) ∧
  (∀ ws : List Int, WellFormed ws = true ↔ ∃ i, decode ws = .ok (i, []))

/-- Words written out from the spec's examples decode to the instructions they stand for. -/
def Obligations.SpecWordsDecode : Prop :=
  decode [1, 7, 1] = .ok (.movi 7 1, []) ∧
  decode [4, 2, 1] = .ok (.sub 2 1, []) ∧
  decode [8, 1, 4] = .ok (.jnz 1 4, []) ∧
  decode [9, 1] = .ok (.out 1, []) ∧
  decode [10] = .ok (.halt, []) ∧
  decode [12, 2, 1] = .ok (.st 2 1, []) ∧
  decode [16, 2] = .ok (.pop 2, []) ∧
  decode [17, 1, 3] = .ok (.ldlo 1 3, [])

/-! ### The step: fetch, decode, faults -/

/-- A free step runs the decoded instruction and adds nothing around it; the instruction whose words stand in memory at IP is
the one decoded (R90, R95, R98, R204). -/
def Obligations.StepRunsTheDecodedInstruction : Prop :=
  (∀ (s : State) (i : Instr) (rest : List Int),
    RunsFreely s → decode s.fetched = .ok (i, rest) → step s = exec i s) ∧
  (∀ (s : State) (i : Instr),
    (∀ (k : Nat) (hk : k < (encode i).length), inRange s.cfg (s.ip + k) = true ∧
      s.memRead (s.ip + k) = (encode i)[k]) →
    ∃ rest, decode s.fetched = .ok (i, rest))

/-- The decoder over the fetched words does what the loop of R99 does: the same words, or the same first fault (R263). The
order of the checks is the spec's decision D5. -/
def Obligations.FetchFollowsTheSpecLoop : Prop :=
  ∀ s : State,
    (∀ f, specFetch s = .error f → ∃ t, runEngine s = .next t ∧ FaultTaken f s t) ∧
    (∀ ws, specFetch s = .ok ws → ∃ i, encode i = ws ∧ runEngine s = exec i s)

/-- R91. -/
def Obligations.OpcodeFetchIsBoundsChecked : Prop :=
  (∀ s : State, RunsFreely s → ¬ (0 ≤ s.ip ∧ s.ip < s.cfg.memWords) →
    ∃ t, step s = .next t ∧ FaultTaken (.memOutOfRange s.ip .fetch) s t) ∧
  (∀ s : State, 0 ≤ s.ip → s.ip < s.cfg.memWords → s.fetched.head? = some (s.memRead s.ip))

/-- R78: an opcode word outside 1 to 18 raises InvalidOpcode with it and its address, whatever follows it; after a legal one the
operand words of its format are an instruction exactly when each register operand is in 0 to 31, and one that is not is what
the decoder reports. -/
def Obligations.IllegalOpcodeFaults : Prop :=
  (∀ s : State, RunsFreely s → 0 ≤ s.ip → s.ip < s.cfg.memWords →
    (s.memRead s.ip < 1 ∨ 18 < s.memRead s.ip) →
    ∃ t, step s = .next t ∧ FaultTaken (.invalidOpcode (s.memRead s.ip) s.ip) s t) ∧
  (∀ tag : Int, formatOfTag tag = none ↔ (tag < 1 ∨ 18 < tag)) ∧
  (∀ (tag : Int) (f : Format) (ws rest : List Int), formatOfTag tag = some f → ws.length = f.operands.length →
    (operandsAccept f.operands ws = true → ∃ i, decode (tag :: ws ++ rest) = .ok (i, rest) ∧ i.tag = tag) ∧
    (operandsAccept f.operands ws = false →
      ∃ k w, (tag :: ws)[k]? = some w ∧ ¬ (0 ≤ w ∧ w < 32) ∧
        decode (tag :: ws ++ rest) = .error (.badRegister k w)))

/-- The sequential advance from an address that was fetched never leaves the word range (R26, an inference the spec marks as
its own, from R5, R50 and R91). -/
def Obligations.SequentialAdvanceNeverWraps : Prop :=
  ∀ (s : State) (i : Instr), s.cfg.Valid → inRange s.cfg s.ip = true →
    (s.advance i.format).ip = s.ip + i.length ∧ s.cfg.IsWord (s.advance i.format).ip

/-- R96: a run of the engine that reports a fault has no other effect than what the session makes of it. -/
def Obligations.FaultsLeaveTheSnapshot : Prop :=
  ∀ s t : State, runEngine s = .next t → t.diagOut = s.diagOut ∨ ∃ f, FaultTaken f s t

/-- Once fetched and decoded, an instruction raises only the faults R261 lists for it. -/
def Obligations.InstructionsRaiseOnlyTheirFaults : Prop :=
  ∀ (i : Instr) (s t : State) (f : ExecFault), exec i s = .next t → FaultTaken f s t → mayRaise s i f

/-- A fault taken in one state is raised again by the next run of the engine (R267, an inference the spec marks as its own). -/
def Obligations.FaultIsRaisedAgain : Prop :=
  ∀ (s t : State) (f : ExecFault), runEngine s = .next t → FaultTaken f s t →
    ∃ u, runEngine t = .next u ∧ FaultTaken f t u

/-- R90: the engine's effect on registers and memory, and what it appends to the channels, depend on registers and memory
(and the parameters) alone. Memory is canonical, an invariant of the model (`StepKeepsInvariant`). -/
def Obligations.EngineDependsOnSnapshotOnly : Prop :=
  ∀ s u t : State, s.mem.wf = true → u.mem.wf = true → u.cfg = s.cfg → SameSnapshot s u → runEngine s = .next t →
    ∃ v, runEngine u = .next v ∧ SameSnapshot t v ∧
      ∃ words events, t.dataOut = s.dataOut ++ words ∧ v.dataOut = u.dataOut ++ words ∧
        t.diagOut = s.diagOut ++ events ∧ v.diagOut = u.diagOut ++ events ∧
        (u.status = s.status → u.debugEnabled = s.debugEnabled → v.status = t.status)

/-! ### Data movement -/

/-- R110. -/
def Obligations.MoviWritesItsImmediate : Prop :=
  ∀ (s : State) (imm : Int) (rd : Reg),
    encode (.movi imm rd) = [1, imm, rd.word] ∧
    ∃ t, exec (.movi imm rd) s = .next t ∧ t.reg rd = imm ∧ (∀ r, r ≠ rd → t.reg r = readDuring s 3 r) ∧
      OnlyRegisters s t

/-- R111. -/
def Obligations.MovCopiesTheSource : Prop :=
  ∀ (s : State) (rs rd : Reg),
    encode (.mov rs rd) = [2, rs.word, rd.word] ∧
    ∃ t, exec (.mov rs rd) s = .next t ∧ t.reg rd = readDuring s 3 rs ∧ (∀ r, r ≠ rd → t.reg r = readDuring s 3 r) ∧
      OnlyRegisters s t

/-! ### Arithmetic -/

/-- R125. -/
def Obligations.AddWritesTheWrappedSum : Prop :=
  ∀ (s : State) (rs rd : Reg),
    encode (.add rs rd) = [3, rs.word, rd.word] ∧
    ∃ t, exec (.add rs rd) s = .next t ∧
      t.reg rd = wrap s.cfg (readDuring s 3 rd + readDuring s 3 rs) ∧
      (∀ r, r ≠ rd → t.reg r = readDuring s 3 r) ∧ OnlyRegisters s t

/-- R126. -/
def Obligations.SubWritesTheWrappedDifference : Prop :=
  ∀ (s : State) (rs rd : Reg),
    encode (.sub rs rd) = [4, rs.word, rd.word] ∧
    ∃ t, exec (.sub rs rd) s = .next t ∧
      t.reg rd = wrap s.cfg (readDuring s 3 rd - readDuring s 3 rs) ∧
      (∀ r, r ≠ rd → t.reg r = readDuring s 3 r) ∧ OnlyRegisters s t

/-- R127. -/
def Obligations.MulWritesTheWrappedProduct : Prop :=
  ∀ (s : State) (rs rd : Reg),
    encode (.mul rs rd) = [5, rs.word, rd.word] ∧
    ∃ t, exec (.mul rs rd) s = .next t ∧
      t.reg rd = wrap s.cfg (readDuring s 3 rd * readDuring s 3 rs) ∧
      (∀ r, r ≠ rd → t.reg r = readDuring s 3 r) ∧ OnlyRegisters s t

/-- R128: where IDIV completes. -/
def Obligations.IdivWritesTheTruncatedQuotient : Prop :=
  ∀ (s : State) (rs rd : Reg), readDuring s 3 rs ≠ 0 →
    ¬ (s.cfg.idivMinNeg1 = .fault ∧ readDuring s 3 rd = minWord s.cfg ∧ readDuring s 3 rs = -1) →
    encode (.idiv rs rd) = [6, rs.word, rd.word] ∧
    ∃ t, exec (.idiv rs rd) s = .next t ∧
      t.reg rd = wrap s.cfg (Int.tdiv (readDuring s 3 rd) (readDuring s 3 rs)) ∧
      (∀ r, r ≠ rd → t.reg r = readDuring s 3 r) ∧ OnlyRegisters s t

/-- R128: where IDIV faults: always on a zero divisor, on the least word by -1 if the parameter says so (the spec's decision
D8), and nowhere else. -/
def Obligations.IdivFaults : Prop :=
  ∀ (s : State) (rs rd : Reg),
    (readDuring s 3 rs = 0 → ∃ t, exec (.idiv rs rd) s = .next t ∧ FaultTaken (.divideByZero s.ip) s t) ∧
    (s.cfg.idivMinNeg1 = .fault → readDuring s 3 rd = minWord s.cfg → readDuring s 3 rs = -1 →
      ∃ t, exec (.idiv rs rd) s = .next t ∧ FaultTaken (.divideOverflow s.ip) s t) ∧
    (∀ t f, exec (.idiv rs rd) s = .next t → FaultTaken f s t →
      (f = .divideByZero s.ip ∧ readDuring s 3 rs = 0) ∨
      (f = .divideOverflow s.ip ∧ s.cfg.idivMinNeg1 = .fault ∧ readDuring s 3 rd = minWord s.cfg ∧ readDuring s 3 rs = -1))

/-- R120, R121, R122 with R13: a result is the word congruent to the exact one, the exact one itself where that is a word, and
its low WORD_BITS bits read as two's complement. How many bits a word has is a parameter (the spec's decision D1; log 1). -/
def Obligations.AluKeepsTheLowBits : Prop :=
  ∀ (c : Config) (a b : Int), c.Valid →
    Narrowed c (a + b) (aluAdd c a b) ∧ Narrowed c (a - b) (aluSub c a b) ∧ Narrowed c (a * b) (aluMul c a b)

/-- Division truncates toward zero (R123, R129 (3)): exact but in the one case that leaves the word range, which wraps (the
spec's decision D8); the quotient is negative exactly when the signs differ and it is not 0. -/
def Obligations.DivisionTruncatesTowardZero : Prop :=
  (∀ (c : Config) (a b : Int), c.Valid → c.IsWord a → c.IsWord b → b ≠ 0 → ¬ (a = minWord c ∧ b = -1) →
    aluDiv c a b = Int.tdiv a b ∧
    (aluDiv c a b).natAbs = a.natAbs / b.natAbs ∧
    (aluDiv c a b < 0 ↔ aluDiv c a b ≠ 0 ∧ (a < 0 ↔ ¬ b < 0))) ∧
  (∀ c : Config, c.Valid → aluDiv c (minWord c) (-1) = minWord c)

/-- The laws (1) and (2) of R129, which the spec marks as its own inference. -/
def Obligations.AluLaws : Prop :=
  ∀ (c : Config) (a b d : Int),
    aluAdd c a b = aluAdd c b a ∧ aluAdd c (aluAdd c a b) d = aluAdd c a (aluAdd c b d) ∧
    aluMul c a b = aluMul c b a ∧ aluMul c (aluMul c a b) d = aluMul c a (aluMul c b d) ∧
    aluSub c a b = aluAdd c a (wrap c (-b))

/-! ### Control transfer and output -/

/-- R140: a target outside memory faults only at the next fetch. -/
def Obligations.JmpGoesToTheRegisterValue : Prop :=
  ∀ (s : State) (ra : Reg),
    encode (.jmp ra) = [7, ra.word] ∧
    ∃ t, exec (.jmp ra) s = .next t ∧ t.ip = readDuring s 2 ra ∧ (∀ r, r ≠ Reg.ip → t.reg r = s.reg r) ∧
      OnlyRegisters s t ∧ TargetCheckedAtFetch t

/-- R141 with the zero test R124. -/
def Obligations.JnzJumpsOnNonZero : Prop :=
  ∀ (s : State) (rs ra : Reg),
    encode (.jnz rs ra) = [8, rs.word, ra.word] ∧
    ∃ t, exec (.jnz rs ra) s = .next t ∧
      (readDuring s 3 rs ≠ 0 → t.ip = readDuring s 3 ra) ∧
      (readDuring s 3 rs = 0 → t.ip = s.ip + 3) ∧
      (∀ r, r ≠ Reg.ip → t.reg r = s.reg r) ∧ OnlyRegisters s t ∧ TargetCheckedAtFetch t

/-- HALT ends the run with exit code 0 in every state of the session (R142, R205). That IP is advanced is the spec's decision
D9. -/
def Obligations.HaltExitsWithZero : Prop :=
  ∀ s : State,
    encode .halt = [10] ∧
    ∃ t, exec .halt s = .next t ∧ t.status = .exited 0 ∧ t.ip = s.ip + 1 ∧ (∀ r, r ≠ Reg.ip → t.reg r = s.reg r) ∧
      SameMemory s t ∧ t.dataOut = s.dataOut ∧ SameSession s t

/-- R143: RP receives the advanced IP and IP the target. That a JAL through RP goes to the advanced IP is the spec's decision
D4. -/
def Obligations.JalLinksAndJumps : Prop :=
  ∀ (s : State) (ra : Reg),
    encode (.jal ra) = [13, ra.word] ∧
    ∃ t, exec (.jal ra) s = .next t ∧ t.reg Reg.rp = s.ip + 2 ∧
      t.ip = (if ra = Reg.rp then s.ip + 2 else readDuring s 2 ra) ∧
      (∀ r, r ≠ Reg.ip → r ≠ Reg.rp → t.reg r = s.reg r) ∧ OnlyRegisters s t ∧ TargetCheckedAtFetch t

/-- R144. -/
def Obligations.RetGoesToTheReturnPointer : Prop :=
  ∀ s : State,
    encode .ret = [14] ∧
    ∃ t, exec .ret s = .next t ∧ t.ip = s.reg Reg.rp ∧ (∀ r, r ≠ Reg.ip → t.reg r = s.reg r) ∧ OnlyRegisters s t ∧
      TargetCheckedAtFetch t

/-- R160. -/
def Obligations.OutAppendsOneWord : Prop :=
  ∀ (s : State) (rs : Reg),
    encode (.out rs) = [9, rs.word] ∧
    ∃ t, exec (.out rs) s = .next t ∧ t.dataOut = s.dataOut ++ [readDuring s 2 rs] ∧ (∀ r, t.reg r = readDuring s 2 r) ∧
      SameMemory s t ∧ t.status = s.status ∧ SameSession s t

/-- R9: each executed OUT appends exactly one word to `data_out`, and nothing else in the whole block writes it. -/
def Obligations.OnlyOutWritesProgramOutput : Prop :=
  ∀ s t : State, step s = .next t → t.dataOut = s.dataOut ∨
    ∃ rs rest, decode s.fetched = .ok (.out rs, rest) ∧ t.dataOut = s.dataOut ++ [readDuring s 2 rs]

/-! ### Loads, stores and the stack -/

/-- R171. -/
def Obligations.LdLoadsOrFaults : Prop :=
  ∀ (s : State) (ra rd : Reg) (a : Int), a = readDuring s 3 ra →
    encode (.ld ra rd) = [11, ra.word, rd.word] ∧
    (0 ≤ a ∧ a < s.cfg.memWords →
      ∃ t, exec (.ld ra rd) s = .next t ∧ t.reg rd = s.mem.read (addrOf a) ∧
        (∀ r, r ≠ rd → t.reg r = readDuring s 3 r) ∧ OnlyRegisters s t) ∧
    (¬ (0 ≤ a ∧ a < s.cfg.memWords) →
      ∃ t, exec (.ld ra rd) s = .next t ∧ FaultTaken (.memOutOfRange a .read) s t)

/-- R172. Memory is canonical, an invariant of the model (`StepKeepsInvariant`). -/
def Obligations.StStoresOrFaults : Prop :=
  ∀ (s : State) (ra rs : Reg) (a : Int), s.mem.wf = true → a = readDuring s 3 ra →
    encode (.st ra rs) = [12, ra.word, rs.word] ∧
    (0 ≤ a ∧ a < s.cfg.memWords →
      ∃ t, exec (.st ra rs) s = .next t ∧ t.mem.read (addrOf a) = readDuring s 3 rs ∧
        (∀ r, t.reg r = readDuring s 3 r) ∧ OnlyRegistersAndWord (addrOf a) s t) ∧
    (¬ (0 ≤ a ∧ a < s.cfg.memWords) →
      ∃ t, exec (.st ra rs) s = .next t ∧ FaultTaken (.memOutOfRange a .write) s t)

/-- R173: the stored value is read before SP changes, and SP grows by 1 without wrapping. -/
def Obligations.PushStoresOrFaults : Prop :=
  ∀ (s : State) (rs : Reg) (a : Int), s.mem.wf = true → a = s.reg Reg.sp →
    encode (.push rs) = [15, rs.word] ∧
    (0 ≤ a ∧ a < s.cfg.memWords →
      ∃ t, exec (.push rs) s = .next t ∧ t.mem.read (addrOf a) = readDuring s 2 rs ∧
        t.reg Reg.sp = a + 1 ∧ (s.cfg.Valid → s.cfg.IsWord (t.reg Reg.sp)) ∧
        (∀ r, r ≠ Reg.sp → t.reg r = readDuring s 2 r) ∧ OnlyRegistersAndWord (addrOf a) s t) ∧
    (¬ (0 ≤ a ∧ a < s.cfg.memWords) →
      ∃ t, exec (.push rs) s = .next t ∧ FaultTaken (.memOutOfRange a .write) s t)

/-- R174: a POP into SP leaves the popped word there. -/
def Obligations.PopLoadsOrFaults : Prop :=
  ∀ (s : State) (rd : Reg) (a : Int), a = wrap s.cfg (s.reg Reg.sp - 1) →
    encode (.pop rd) = [16, rd.word] ∧
    (0 ≤ a ∧ a < s.cfg.memWords →
      ∃ t, exec (.pop rd) s = .next t ∧ t.reg rd = s.mem.read (addrOf a) ∧ (rd ≠ Reg.sp → t.reg Reg.sp = a) ∧
        (∀ r, r ≠ Reg.sp → r ≠ rd → t.reg r = readDuring s 2 r) ∧ OnlyRegisters s t) ∧
    (¬ (0 ≤ a ∧ a < s.cfg.memWords) →
      ∃ t, exec (.pop rd) s = .next t ∧ FaultTaken (.memOutOfRange a .read) s t)

/-- R175. -/
def Obligations.LdloLoadsOrFaults : Prop :=
  ∀ (s : State) (imm : Int) (rd : Reg) (a : Int), a = wrap s.cfg (s.reg Reg.fp + imm) →
    encode (.ldlo imm rd) = [17, imm, rd.word] ∧
    (0 ≤ a ∧ a < s.cfg.memWords →
      ∃ t, exec (.ldlo imm rd) s = .next t ∧ t.reg rd = s.mem.read (addrOf a) ∧
        (∀ r, r ≠ rd → t.reg r = readDuring s 3 r) ∧ OnlyRegisters s t) ∧
    (¬ (0 ≤ a ∧ a < s.cfg.memWords) →
      ∃ t, exec (.ldlo imm rd) s = .next t ∧ FaultTaken (.memOutOfRange a .read) s t)

/-- R176. -/
def Obligations.StloStoresOrFaults : Prop :=
  ∀ (s : State) (imm : Int) (rs : Reg) (a : Int), s.mem.wf = true → a = wrap s.cfg (s.reg Reg.fp + imm) →
    encode (.stlo imm rs) = [18, imm, rs.word] ∧
    (0 ≤ a ∧ a < s.cfg.memWords →
      ∃ t, exec (.stlo imm rs) s = .next t ∧ t.mem.read (addrOf a) = readDuring s 3 rs ∧
        (∀ r, t.reg r = readDuring s 3 r) ∧ OnlyRegistersAndWord (addrOf a) s t) ∧
    (¬ (0 ≤ a ∧ a < s.cfg.memWords) →
      ∃ t, exec (.stlo imm rs) s = .next t ∧ FaultTaken (.memOutOfRange a .write) s t)

/-- R177: PUSH then POP leaves SP unchanged and delivers the pushed value, for every SP that addresses memory. -/
def Obligations.PushThenPopRestoresTheStack : Prop :=
  ∀ (s : State) (r q : Reg), s.cfg.Valid → s.mem.wf = true → 0 ≤ s.reg Reg.sp → s.reg Reg.sp < s.cfg.memWords →
    q ≠ Reg.sp →
    ∃ t u, exec (.push r) s = .next t ∧ exec (.pop q) t = .next u ∧ u.reg Reg.sp = s.reg Reg.sp ∧
      u.reg q = readDuring s 2 r

/-- The frame of all 18 instructions, fault or not: registers other than IP and the listed destinations, every memory word but
the one stored to, the parameters, debug mode, the breakpoint, the inputs, and `data_out` for all but OUT. -/
def Obligations.FrameOfEveryInstruction : Prop :=
  ∀ (i : Instr) (s t : State), s.mem.wf = true → exec i s = .next t →
    (∀ r, r ≠ Reg.ip → r ∉ destinations i → t.reg r = s.reg r) ∧
    (∀ b, (∀ a, storeAddress s i = some a → b ≠ addrOf a) → t.mem.read b = s.mem.read b) ∧
    SameSetting s t ∧ ((∀ rs, i ≠ .out rs) → t.dataOut = s.dataOut)

/-! ### The debugger session -/

/-- R201: at its breakpoint a running debug session first pauses and announces the hit, and then goes on exactly as a paused
session does, so nothing has executed. -/
def Obligations.BreakpointPausesBeforeTheStep : Prop :=
  ∀ s : State, s.status = .running → s.wait = .nothing → s.debugEnabled = true → s.paused = false →
    s.breakpoint = some s.ip →
    step s = step { s with paused := true, diagOut := s.diagOut ++ [.breakpointHit s.ip] }

/-- A step announces a breakpoint hit exactly when it begins at the breakpoint of a debug session that is not paused, once,
with that IP, before any other event; no other event of the step is one (R201, R208). -/
def Obligations.BreakpointHitOnlyAtTheBreakpoint : Prop :=
  ∀ s t : State, step s = .next t →
    ∃ events, t.diagOut = s.diagOut ++ (if AtBreakpoint s then [.breakpointHit s.ip] else []) ++ events ∧
      ∀ a, .breakpointHit a ∉ events

/-- R202: a paused session emits one prompt with IP and then blocks until a transaction is there. How the wait is held between
steps is the model's choice (log 7). -/
def Obligations.PausedSessionPromptsAndWaits : Prop :=
  (∀ s : State, s.status = .running → s.wait = .nothing → s.debugEnabled = true → s.paused = true → s.cmdIn = [] →
    step s = .next { s with diagOut := s.diagOut ++ [.prompt s.ip], wait := .command }) ∧
  (∀ s : State, s.status = .running → s.wait = .command → s.cmdIn = [] → step s = .next s)

/-- A step consumes at most the oldest transaction of `cmd_in`, and only in a session that is paused or pauses at its
breakpoint (R8, R202). Rests on the invariant of the model. -/
def Obligations.CommandsAreConsumedOneAtATime : Prop :=
  ∀ s t : State, s.Inv → step s = .next t →
    t.cmdIn = s.cmdIn ∨
      ∃ c, s.cmdIn = c :: t.cmdIn ∧ s.debugEnabled = true ∧ (s.paused = true ∨ s.breakpoint = some s.ip)

/-- R203: end of input leaves debug mode and the pause, no step ever enters debug mode again, and outside it every iteration
runs the engine. That the engine runs in the same iteration is the spec's decision D30. -/
def Obligations.EndOfInputLeavesDebugModeForGood : Prop :=
  (∀ (s : State) (rest : List CmdIn), Receives s .endOfInput rest →
    step s = runEngine { received s rest with debugEnabled := false, paused := false }) ∧
  (∀ s t : State, step s = .next t → s.debugEnabled = false → t.debugEnabled = false) ∧
  (∀ s : State, s.status = .running → s.wait = .nothing → s.debugEnabled = false → step s = runEngine s)

/-- The command decoder (R211, R212): `x`, or a non-empty prefix of a vocabulary word, in either case of letters, names that
command and no other; only the empty word is ambiguous. -/
def Obligations.CommandDecoderAcceptsPrefixes : Prop :=
  (∀ (w : Token) (c : Command), decodeCommand w = .command c ↔
    (lowercase w = ['x'] ∧ c = .examine) ∨ (w ≠ [] ∧ lowercase w <+: commandWord c)) ∧
  (∀ w : Token, decodeCommand w = .ambiguous ↔ w = [])

/-- R213: the iteration ends without an event of its own, and the next one emits a new prompt. -/
def Obligations.UnmatchedInputDoesNothing : Prop :=
  ∀ (s : State) (w : Token) (arg : Option Token) (rest : List CmdIn), Receives s (.line w arg) rest →
    (decodeCommand w = .noMatch ∨ decodeCommand w = .ambiguous) →
    step s = .next (received s rest) ∧
      (s.debugEnabled = true → (received s rest).paused = true →
        ∃ t, step (received s rest) = .next t ∧ (received s rest).diagOut ++ [.prompt s.ip] <+: t.diagOut)

/-- The register resolver (R214, digits only by the spec's decision D19), and that every name `print` shows resolves (R223,
decision D23). -/
def Obligations.RegisterResolverAcceptsExactlyTheNames : Prop :=
  (∀ (w : Token) (i : Reg), resolveRegister w = some i ↔
    (lowercase w = ['i', 'p'] ∧ i = Reg.ip) ∨ (lowercase w = ['r', 'p'] ∧ i = Reg.rp) ∨
    (lowercase w = ['f', 'p'] ∧ i = Reg.fp) ∨ (lowercase w = ['s', 'p'] ∧ i = Reg.sp) ∨
    ∃ ds, lowercase w = 'r' :: ds ∧ ds ≠ [] ∧ (∀ c ∈ ds, isDecimalDigit c = true) ∧ decimalValue ds = i.val) ∧
  (∀ i : Reg, resolveRegister (registerName i) = some i)

/-- R216: a register's current value first, else a decimal literal; the result is always in range. That a literal is the whole
token in digits, without bound, and that any other token is malformed is the spec's decision D20. -/
def Obligations.AddressResolverIsBoundsChecked : Prop :=
  ∀ (w : Token) (s : State),
    (∀ a, resolveAddress w s = .ok a → 0 ≤ a ∧ a < s.cfg.memWords) ∧
    (w = [] → resolveAddress w s = .error .addressRequired) ∧
    (∀ i, resolveRegister w = some i →
      resolveAddress w s = if 0 ≤ s.reg i ∧ s.reg i < s.cfg.memWords then .ok (s.reg i)
        else .error (.addressOutOfRange (s.reg i))) ∧
    (w ≠ [] → (∀ c ∈ w, isDecimalDigit c = true) →
      resolveAddress w s = if decimalValue w < s.cfg.memWords then .ok (decimalValue w)
        else .error (.addressOutOfRange (decimalValue w))) ∧
    (w ≠ [] → resolveRegister w = none → (∃ c ∈ w, isDecimalDigit c = false) →
      resolveAddress w s = .error (.malformedAddress w))

/-- R220, R221, R222, R225: `help`, `list` and `frame` report and do nothing else; `quit` ends the run with exit code 0. -/
def Obligations.HelpListFrameQuit : Prop :=
  ∀ (s : State) (w : Token) (arg : Option Token) (rest : List CmdIn), Receives s (.line w arg) rest →
    (decodeCommand w = .command .help → step s = .next ((received s rest).emitDiag .helpText)) ∧
    (decodeCommand w = .command .list → step s = .next ((received s rest).emitDiag (.notImplemented .list))) ∧
    (decodeCommand w = .command .frame → step s = .next ((received s rest).emitDiag (.notImplemented .frame))) ∧
    (decodeCommand w = .command .quit → step s = .next ((received s rest).exit 0))

/-- R223, R224: what `print` and `examine` report. -/
def Obligations.PrintAndExamineReport : Prop :=
  ∀ (s : State) (w : Token) (arg : Option Token) (rest : List CmdIn), Receives s (.line w arg) rest →
    (decodeCommand w = .command .print →
      (arg = none → step s = .next ((received s rest).emitDiag (.cmdError .missingArgument))) ∧
      (∀ n i, arg = some n → resolveRegister n = some i →
        step s = .next ((received s rest).emitDiag (.printResult i (s.reg i)))) ∧
      (∀ n, arg = some n → resolveRegister n = none →
        step s = .next ((received s rest).emitDiag (.cmdError (.badRegisterName n))))) ∧
    (decodeCommand w = .command .examine →
      (arg = none → step s = .next ((received s rest).emitDiag (.cmdError .addressRequired))) ∧
      (∀ n a, arg = some n → resolveAddress n s = .ok a →
        step s = .next ((received s rest).emitDiag (.examineResult a (s.mem.read (addrOf a))))) ∧
      (∀ n e, arg = some n → resolveAddress n s = .error e →
        step s = .next ((received s rest).emitDiag (.cmdError e))))

/-- R229, R230: what `break` and `delete` do to the breakpoint. That a successful one emits no event is the spec's decision
D22. -/
def Obligations.BreakAndDeleteSetTheBreakpoint : Prop :=
  ∀ (s : State) (w : Token) (arg : Option Token) (rest : List CmdIn), Receives s (.line w arg) rest →
    (decodeCommand w = .command .breakAt →
      (arg = none → step s = .next { received s rest with breakpoint := some s.ip }) ∧
      (∀ n a, arg = some n → resolveAddress n s = .ok a →
        step s = .next { received s rest with breakpoint := some a }) ∧
      (∀ n e, arg = some n → resolveAddress n s = .error e →
        step s = .next ((received s rest).emitDiag (.cmdError e)))) ∧
    (decodeCommand w = .command .delete →
      (s.breakpoint = none → step s = .next ((received s rest).emitDiag (.cmdError .noBreakpointSet))) ∧
      (s.breakpoint ≠ none → step s = .next { received s rest with breakpoint := none }))

/-- `step` runs the engine once and stays paused (R226; that its argument is ignored is the spec's decision D17); `continue`
runs it once in the same iteration and leaves the pause unless that step faults, so it makes progress before any breakpoint
check (R208, R227; decision D31). -/
def Obligations.StepAndContinueRunTheEngine : Prop :=
  ∀ (s : State) (w : Token) (arg : Option Token) (rest : List CmdIn), Receives s (.line w arg) rest →
    (decodeCommand w = .command .step → step s = runEngine (received s rest) ∧
      ∀ t, (received s rest).paused = true → step s = .next t → t.paused = true) ∧
    (decodeCommand w = .command .cont → step s = runEngine { received s rest with paused := false } ∧
      ∀ t, step s = .next t → t.diagOut = (received s rest).diagOut → t.paused = false)

/-- R231: a command that is not `step`, `continue` or `restart` leaves the snapshot, program output, debug mode and the pause
alone; one that reports a command error changes nothing else; `break` and `delete` change only the breakpoint; `continue`
changes the pause and runs the engine. -/
def Obligations.DebuggerNeverWritesTheSnapshot : Prop :=
  (∀ (c : Command) (arg : Option Token) (s t : State), c ≠ .step → c ≠ .cont → c ≠ .restart →
    runCommand c arg s = .next t →
    SameSnapshot s t ∧ t.dataOut = s.dataOut ∧ t.debugEnabled = s.debugEnabled ∧ t.paused = s.paused ∧
      (c ≠ .breakAt → c ≠ .delete → t.breakpoint = s.breakpoint) ∧
      (c = .breakAt ∨ c = .delete →
        t = { s with breakpoint := t.breakpoint } ∨ ∃ e, t = s.emitDiag (.cmdError e)) ∧
      (∀ e, t.diagOut = s.diagOut ++ [.cmdError e] → t = s.emitDiag (.cmdError e))) ∧
  (∀ (arg : Option Token) (s : State), runCommand .cont arg s = runEngine { s with paused := false })

/-! ### Reset, load, end of a run, invariants -/

/-- R36, R300, R301: with the loader's answer, the first step after reset leaves the state of R36's table. RP = 0 and the session
values are the spec's decisions D10 and D11; that the answer is taken by a step of its own is the model's choice (log 4). -/
def Obligations.ResetLoadsTheImage : Prop :=
  ∀ (cfg : Config) (dbg : Bool) (image : List Int), image.length ≤ cfg.memWords →
    ∃ t, step ((State.resetWith cfg dbg).offerLoad (.ok image)) = .next t ∧ FreshSnapshot image t ∧ t.mem.wf = true ∧
      t.cfg = cfg ∧ t.debugEnabled = dbg ∧ t.paused = dbg ∧ t.breakpoint = none ∧ t.status = .running ∧
      t.dataOut = [] ∧ t.diagOut = [] ∧ t.wait = .nothing

/-- R228, R303: a load request, after reset, at a `restart` or after the wait either began, replaces the whole snapshot by that
of the loader's answer; a `restart` with no answer at hand waits, with everything kept. That the session state and the
histories are kept is the spec's decision D12; the wait is the model's choice (log 5). -/
def Obligations.RestartReloadsTheSnapshot : Prop :=
  (∀ (s u : State) (image : List Int) (more : List LoadResult), LoadRequestedFrom s u → u.loaderIn = .ok image :: more →
    image.length ≤ u.cfg.memWords →
    ∃ t, step s = .next t ∧ FreshSnapshot image t ∧ t.mem.wf = true ∧ t.loaderIn = more ∧ t.wait = .nothing ∧
      SameOutsideSnapshot u t) ∧
  (∀ (s u : State), LoadRequestedFrom s u → u.loaderIn = [] → step s = .next { u with wait := .loader })

/-- Canonical memories that read alike are the same data, so two loads of one image make identical snapshots (R303, an inference
the spec marks as its own). -/
def Obligations.CanonicalMemoriesAreEqual : Prop :=
  ∀ m n : Memory, m.wf = true → n.wf = true → (∀ a, m.read a = n.read a) → m = n

/-- R302: a load failure is reported and ends the run, after reset and at `restart`, whether the answer is at hand or was waited
for. That an image longer than memory is one is the spec's decision D13 (log 6). -/
def Obligations.LoadFailureEndsTheRun : Prop :=
  ∀ (s u : State) (r : LoadResult) (more : List LoadResult), LoadRequestedFrom s u → u.loaderIn = r :: more →
    (∀ k, r = .err k → ∃ t, step s = .next t ∧ t.diagOut = u.diagOut ++ [.loadError k] ∧
      t.status = .exited u.cfg.exitFailure ∧ t.dataOut = u.dataOut) ∧
    (∀ image, r = .ok image → u.cfg.memWords < image.length →
      ∃ t, step s = .next t ∧ t.diagOut = u.diagOut ++ [.loadError (.imageTooLarge image.length)] ∧
        t.status = .exited u.cfg.exitFailure ∧ t.dataOut = u.dataOut)

/-- R305: a step ends the run exactly when the engine runs in it and executes HALT, when it receives `quit`, when the engine runs
in it outside debug mode and the step reports a fault, or when it requests the loader's answer and reports a load error. -/
def Obligations.RunEndsOnlyInTheListedWays : Prop :=
  ∀ (s t : State) (code : Int), step s = .next t → (t.status = .exited code ↔
    (code = 0 ∧ ∃ u rest, EngineRunsFrom s u ∧ decode u.fetched = .ok (.halt, rest) ∧ runEngine u = .next t) ∨
    (code = 0 ∧ ∃ w arg rest, Receives s (.line w arg) rest ∧ decodeCommand w = .command .quit ∧ t.cmdIn = rest) ∨
    (code = s.cfg.exitFailure ∧
      ∃ u f, EngineRunsFrom s u ∧ u.debugEnabled = false ∧ t.diagOut = u.diagOut ++ [.faultReport f]) ∨
    (code = s.cfg.exitFailure ∧ ∃ u k, LoadRequestedFrom s u ∧ t.diagOut = u.diagOut ++ [.loadError k]))

/-- After `exit_out` has fired the block takes no further step, and until then every state has a successor (R11, R32,
93_implementation_defined.md). That the model stops with a fault of that name is its choice (log 9). -/
def Obligations.StepAnswersUntilExit : Prop :=
  ∀ s : State, (s.status = .running ↔ ∃ t, step s = .next t) ∧ ∀ c, s.status = .exited c → step s = .fault (.exited c)

/-- R34: the histories only grow, and a step is taken only while there is no exit code yet. -/
def Obligations.HistoriesOnlyGrow : Prop :=
  ∀ s t : State, step s = .next t → s.dataOut <+: t.dataOut ∧ s.diagOut <+: t.diagOut ∧ s.status = .running

/-- Every step keeps the invariant and the parameters. -/
def Obligations.StepKeepsInvariant : Prop :=
  ∀ s t : State, s.Inv → step s = .next t → t.Inv ∧ t.cfg = s.cfg

/-- The state after reset meets the invariant, at every valid choice of the parameters and either value of
`cfg_debug_enable`. -/
def Obligations.ResetMeetsInvariant : Prop :=
  (∀ (cfg : Config) (dbg : Bool), cfg.Valid → (State.resetWith cfg dbg).Inv) ∧ State.reset.Inv
end

