-- ==== Sys2Proof/Laws/Alu.lean ====
section
/-! SUPPORT. Narrowing to a word: what `wrap` gives, and that the ALU's results are words. -/

namespace Sys2Proof.Machine

/-- Twice the bound of a word is the modulus, at every width but 0. -/
theorem two_pow_pred {c : Config} (h : c.wordBits ≠ 0) : 2 ^ c.wordBits = 2 * 2 ^ (c.wordBits - 1) := by
  obtain ⟨n, hn⟩ := Nat.exists_eq_succ_of_ne_zero h
  rw [hn, Nat.pow_succ, Nat.succ_sub_one, Nat.mul_comm]

/-- A valid width is not 0. -/
theorem wordBits_ne_of_valid {c : Config} (h : c.Valid) : c.wordBits ≠ 0 := by
  intro h0
  have := h.2.1
  rw [h0] at this
  omega

/-- A narrowed integer is a word (R13). -/
theorem wrap_isWord {c : Config} (h : c.wordBits ≠ 0) (v : Int) : c.IsWord (wrap c v) := by
  have e := two_pow_pred h
  have hp : 0 < 2 ^ (c.wordBits - 1) := Nat.two_pow_pos _
  unfold Config.IsWord wrap
  rw [e]
  generalize 2 ^ (c.wordBits - 1) = m at hp ⊢
  constructor
  · have := Int.le_bmod (x := v) (m := 2 * m) (by omega)
    omega
  · have := Int.bmod_lt (x := v) (m := 2 * m) (by omega)
    omega

/-- Narrowing leaves a word alone (R13). -/
theorem wrap_of_isWord {c : Config} (h : c.wordBits ≠ 0) {v : Int} (hv : c.IsWord v) : wrap c v = v := by
  have e := two_pow_pred h
  unfold Config.IsWord at hv
  unfold wrap
  rw [e]
  generalize 2 ^ (c.wordBits - 1) = m at hv ⊢
  apply Int.bmod_eq_of_le <;> omega

/-- The least word is a word. -/
theorem minWord_isWord (c : Config) : c.IsWord (minWord c) := by
  have hp : 0 < 2 ^ (c.wordBits - 1) := Nat.two_pow_pos _
  unfold Config.IsWord minWord
  generalize 2 ^ (c.wordBits - 1) = m at hp ⊢
  omega

end Sys2Proof.Machine
end

