-- ==== Sys2Proof/Laws/Decode.lean ====
section
/-! SUPPORT. Reading operands: a register's own word reads back, and what a successful read says. -/

namespace Sys2Proof

/-- The bounds check of a register operand (R73). -/
theorem Laws.Decode.reg_accepts_iff (w : Int) : OperandKind.reg.accepts w = true ↔ 0 ≤ w ∧ w < 32 := by
  simp [OperandKind.accepts]

/-- A register's own word passes the bounds check. -/
theorem Reg.word_inRange (r : Reg) : 0 ≤ r.word ∧ r.word < 32 := by
  have h := r.isLt
  simp only [Reg.word]
  omega

@[simp] theorem Reg.word_toNat (r : Reg) : r.word.toNat = r.val := by simp [Reg.word]

@[simp] theorem readReg_word (k : Nat) (r : Reg) (ws : List Int) : readReg k (r.word :: ws) = .ok (r, ws) := by
  simp [readReg, Reg.word_inRange]

@[simp] theorem readImm_word (k : Nat) (w : Int) (ws : List Int) : readImm k (w :: ws) = .ok (w, ws) := rfl

/-- A register read consumes exactly that register's word. -/
theorem readReg_ok {k : Nat} {ws rest : List Int} {r : Reg} (h : readReg k ws = .ok (r, rest)) : ws = r.word :: rest := by
  cases ws with
  | nil => simp [readReg] at h
  | cons w ws =>
    simp only [readReg] at h
    split at h
    · rename_i hw
      obtain ⟨rfl, rfl⟩ : (⟨w.toNat, by omega⟩ : Reg) = r ∧ ws = rest := by simpa using h
      simp [Reg.word, hw.1]
    · simp at h

/-- An immediate read consumes exactly that word. -/
theorem readImm_ok {k : Nat} {ws rest : List Int} {w : Int} (h : readImm k ws = .ok (w, rest)) : ws = w :: rest := by
  cases ws with
  | nil => simp [readImm] at h
  | cons v ws => simpa [readImm] using h

/-- What a successful decode of each format says. -/
theorem decodeF1R_ok {mk : Reg → Instr} {ws rest : List Int} {i : Instr} (h : decodeF1R mk ws = .ok (i, rest)) :
    ∃ r, i = mk r ∧ ws = r.word :: rest := by
  simp only [decodeF1R] at h
  split at h
  · simp at h
  · rename_i r ws' hr
    obtain ⟨rfl, rfl⟩ : mk r = i ∧ ws' = rest := by simpa using h
    exact ⟨r, rfl, readReg_ok hr⟩

theorem decodeF2RR_ok {mk : Reg → Reg → Instr} {ws rest : List Int} {i : Instr} (h : decodeF2RR mk ws = .ok (i, rest)) :
    ∃ r q, i = mk r q ∧ ws = r.word :: q.word :: rest := by
  simp only [decodeF2RR] at h
  split at h
  · simp at h
  · rename_i r ws' hr
    split at h
    · simp at h
    · rename_i q ws'' hq
      obtain ⟨rfl, rfl⟩ : mk r q = i ∧ ws'' = rest := by simpa using h
      exact ⟨r, q, rfl, by rw [readReg_ok hr, readReg_ok hq]⟩

theorem decodeF2IR_ok {mk : Int → Reg → Instr} {ws rest : List Int} {i : Instr} (h : decodeF2IR mk ws = .ok (i, rest)) :
    ∃ v q, i = mk v q ∧ ws = v :: q.word :: rest := by
  simp only [decodeF2IR] at h
  split at h
  · simp at h
  · rename_i v ws' hr
    split at h
    · simp at h
    · rename_i q ws'' hq
      obtain ⟨rfl, rfl⟩ : mk v q = i ∧ ws'' = rest := by simpa using h
      exact ⟨v, q, rfl, by rw [readImm_ok hr, readReg_ok hq]⟩

end Sys2Proof
end

