-- ==== Sys2Proof/Laws/Memory.lean ====
section
/-! SUPPORT. Memory: read after write, and every operation keeps the canonical form and the bound on addresses. -/

namespace Sys2Proof.Machine

/-- The canonical form of a list, one cell at a time. -/
theorem wf_cons {a : Nat} {v : Int} {m : Memory} :
    Memory.wf ((a, v) :: m) = true ↔ v ≠ Memory.unlisted ∧ (∀ c ∈ m, a < c.1) ∧ m.wf = true := by
  simp [Memory.wf, and_assoc]

/-- An address below every listed one reads as unlisted. -/
theorem read_below {m : Memory} {a : Nat} (h : ∀ c ∈ m, a < c.1) : m.read a = Memory.unlisted := by
  induction m with
  | nil => rfl
  | cons c m ih =>
    obtain ⟨b, w⟩ := c
    have hb : a < b := h (b, w) (by simp)
    simp only [Memory.read, if_neg (Nat.ne_of_lt hb)]
    exact ih fun c hc => h c (by simp [hc])

/-- The cells of a written memory: an old one, or the written one. -/
theorem mem_write {m : Memory} {a : Nat} {v : Int} {c : Nat × Int} (h : c ∈ m.write a v) : c ∈ m ∨ c = (a, v) := by
  induction m with
  | nil =>
    simp only [Memory.write] at h
    split at h <;> simp_all
  | cons b m ih =>
    obtain ⟨b, w⟩ := b
    simp only [Memory.write] at h
    split at h
    · split at h
      · exact .inl h
      · simp_all; tauto
    · split at h
      · split at h <;> simp_all
        tauto
      · rcases List.mem_cons.mp h with rfl | h
        · simp
        · rcases ih h with h | h <;> simp [h]

/-- A write keeps the canonical form. -/
theorem write_wf {m : Memory} (a : Nat) (v : Int) (h : m.wf = true) : (m.write a v).wf = true := by
  induction m with
  | nil =>
    simp only [Memory.write]
    split <;> simp_all [Memory.wf]
  | cons c m ih =>
    obtain ⟨b, w⟩ := c
    obtain ⟨hw, hb, hm⟩ := wf_cons.mp h
    simp only [Memory.write]
    split
    · rename_i hab
      split
      · exact h
      · rename_i hv
        refine wf_cons.mpr ⟨hv, ?_, h⟩
        intro c hc
        rcases List.mem_cons.mp hc with rfl | hc
        · exact hab
        · exact Nat.lt_trans hab (hb c hc)
    · split
      · rename_i hab
        subst hab
        split
        · exact hm
        · rename_i hv
          exact wf_cons.mpr ⟨hv, hb, hm⟩
      · refine wf_cons.mpr ⟨hw, ?_, ih hm⟩
        intro c hc
        rcases mem_write hc with hc | rfl
        · exact hb c hc
        · simp only; omega

/-- A write keeps every listed address below a bound that it is itself below. -/
theorem write_bound {m : Memory} {a n : Nat} (v : Int) (h : ∀ c ∈ m, c.1 < n) (ha : a < n) :
    ∀ c ∈ m.write a v, c.1 < n := by
  intro c hc
  rcases mem_write hc with hc | rfl
  · exact h c hc
  · exact ha

/-- A read after a write to canonical memory. -/
theorem read_write {m : Memory} (a b : Nat) (v : Int) (h : m.wf = true) :
    (m.write a v).read b = if b = a then v else m.read b := by
  induction m with
  | nil =>
    simp only [Memory.write]
    split <;> simp_all [Memory.read]
  | cons c m ih =>
    obtain ⟨k, w⟩ := c
    obtain ⟨hw, hk, hm⟩ := wf_cons.mp h
    simp only [Memory.write]
    split
    · rename_i hak
      split
      · rename_i hv
        split
        · rename_i hba
          subst hba
          rw [hv, read_below]
          intro c hc
          rcases List.mem_cons.mp hc with rfl | hc
          · exact hak
          · exact Nat.lt_trans hak (hk c hc)
        · rfl
      · simp only [Memory.read]
    · split
      · rename_i hak
        subst hak
        split
        · rename_i hv
          split
          · rename_i hba
            subst hba
            rw [hv, read_below hk]
          · rename_i hba
            simp only [Memory.read, if_neg hba]
        · simp only [Memory.read]
          split <;> rfl
      · rename_i hak hne
        simp only [Memory.read, ih hm]
        by_cases hbk : b = k
        · have : b ≠ a := by omega
          simp [hbk]
          omega
        · simp [hbk]

/-- The cells of an image lie at its addresses. -/
theorem mem_ofImage {vs : List Int} {a : Nat} {c : Nat × Int} (h : c ∈ Memory.ofImage a vs) :
    a ≤ c.1 ∧ c.1 < a + vs.length := by
  induction vs generalizing a with
  | nil => simp [Memory.ofImage] at h
  | cons v vs ih =>
    simp only [Memory.ofImage] at h
    simp only [List.length_cons]
    split at h
    · have := ih h; omega
    · rcases List.mem_cons.mp h with rfl | h
      · simp
      · have := ih h; omega

/-- The cells of an image hold its words. -/
theorem mem_ofImage_val {vs : List Int} {a : Nat} {c : Nat × Int} (h : c ∈ Memory.ofImage a vs) : c.2 ∈ vs := by
  induction vs generalizing a with
  | nil => simp [Memory.ofImage] at h
  | cons v vs ih =>
    simp only [Memory.ofImage] at h
    split at h
    · exact List.mem_cons_of_mem _ (ih h)
    · rcases List.mem_cons.mp h with rfl | h
      · exact List.mem_cons_self
      · exact List.mem_cons_of_mem _ (ih h)

/-- What holds of every listed word and of an unlisted one holds of every word read. -/
theorem read_mem {P : Int → Prop} (h0 : P Memory.unlisted) {m : Memory} (h : ∀ c ∈ m, P c.2) (a : Nat) : P (m.read a) := by
  induction m with
  | nil => exact h0
  | cons c m ih =>
    simp only [Memory.read]
    split
    · exact h _ List.mem_cons_self
    · exact ih fun c hc => h c (List.mem_cons_of_mem _ hc)

/-- An image's memory is canonical. -/
theorem ofImage_wf (vs : List Int) (a : Nat) : (Memory.ofImage a vs).wf = true := by
  induction vs generalizing a with
  | nil => rfl
  | cons v vs ih =>
    simp only [Memory.ofImage]
    split
    · exact ih _
    · rename_i hv
      refine wf_cons.mpr ⟨hv, ?_, ih _⟩
      intro c hc
      have := (mem_ofImage hc).1
      omega

/-- An image's memory holds the image and zeros after it (R301). -/
theorem read_ofImage (vs : List Int) (a b : Nat) :
    (Memory.ofImage a vs).read b = if a ≤ b then vs.getD (b - a) Memory.unlisted else Memory.unlisted := by
  induction vs generalizing a with
  | nil => simp [Memory.ofImage, Memory.read]
  | cons v vs ih =>
    simp only [Memory.ofImage]
    rcases Nat.lt_trichotomy b a with h | rfl | h
    · have hb : ∀ c ∈ Memory.ofImage (a + 1) vs, b < c.1 := fun c hc => by
        have := (mem_ofImage hc).1
        omega
      rw [if_neg (Nat.not_le_of_lt h)]
      split
      · exact read_below hb
      · rw [Memory.read, if_neg (Nat.ne_of_lt h)]
        exact read_below hb
    · split
      · rename_i hv
        rw [ih, if_neg (by omega)]
        simp [hv]
      · simp [Memory.read]
    · obtain ⟨d, rfl⟩ : ∃ d, b = a + 1 + d := ⟨b - (a + 1), by omega⟩
      have e : a + 1 + d - a = d + 1 := by omega
      split
      · rw [ih]; simp [e]; intro h'; omega
      · rw [Memory.read, if_neg (by omega), ih]; simp [e]; intro h'; omega

/-- A store through the address decoder keeps memory canonical. -/
theorem memWrite_wf {s : State} (a v : Int) (h : s.mem.wf = true) : (s.memWrite a v).mem.wf = true := write_wf _ v h

/-- A load makes memory canonical (R301). -/
theorem load_wf (s : State) (image : List Int) : (s.load image).mem.wf = true := ofImage_wf image 0

/-- Placing words keeps memory canonical. -/
theorem placeWords_wf {c : Config} (vs : List Int) {m : Memory} (a : Nat) (h : m.wf = true) :
    (placeWords c m a vs).wf = true := by
  induction vs generalizing m a with
  | nil => exact h
  | cons v vs ih =>
    refine ih (a + 1) ?_
    split
    · exact write_wf a v h
    · exact h

/-- The memory right after reset is canonical. -/
theorem reset_mem_wf : State.reset.mem.wf = true := rfl

end Sys2Proof.Machine
end

