-- ==== Sys2Proof/Laws/State.lean ====
section
/-! SUPPORT. One lemma per field per update of State, each true by unfolding, so that no later proof unfolds a record update. -/

namespace Sys2Proof.Machine

variable (s : State)

@[simp] theorem setReg_cfg (r : Reg) (v : Int) : (s.setReg r v).cfg = s.cfg := rfl
@[simp] theorem setReg_regs (r : Reg) (v : Int) : (s.setReg r v).regs = s.regs.set r.val v r.isLt := rfl
@[simp] theorem setReg_mem (r : Reg) (v : Int) : (s.setReg r v).mem = s.mem := rfl
@[simp] theorem setReg_debugEnabled (r : Reg) (v : Int) : (s.setReg r v).debugEnabled = s.debugEnabled := rfl
@[simp] theorem setReg_paused (r : Reg) (v : Int) : (s.setReg r v).paused = s.paused := rfl
@[simp] theorem setReg_breakpoint (r : Reg) (v : Int) : (s.setReg r v).breakpoint = s.breakpoint := rfl
@[simp] theorem setReg_status (r : Reg) (v : Int) : (s.setReg r v).status = s.status := rfl
@[simp] theorem setReg_dataOut (r : Reg) (v : Int) : (s.setReg r v).dataOut = s.dataOut := rfl
@[simp] theorem setReg_diagOut (r : Reg) (v : Int) : (s.setReg r v).diagOut = s.diagOut := rfl
@[simp] theorem setReg_cmdIn (r : Reg) (v : Int) : (s.setReg r v).cmdIn = s.cmdIn := rfl
@[simp] theorem setReg_loaderIn (r : Reg) (v : Int) : (s.setReg r v).loaderIn = s.loaderIn := rfl
@[simp] theorem setReg_wait (r : Reg) (v : Int) : (s.setReg r v).wait = s.wait := rfl

@[simp] theorem memWrite_cfg (a v : Int) : (s.memWrite a v).cfg = s.cfg := rfl
@[simp] theorem memWrite_regs (a v : Int) : (s.memWrite a v).regs = s.regs := rfl
@[simp] theorem memWrite_mem (a v : Int) : (s.memWrite a v).mem = s.mem.write (addrOf a) v := rfl
@[simp] theorem memWrite_debugEnabled (a v : Int) : (s.memWrite a v).debugEnabled = s.debugEnabled := rfl
@[simp] theorem memWrite_paused (a v : Int) : (s.memWrite a v).paused = s.paused := rfl
@[simp] theorem memWrite_breakpoint (a v : Int) : (s.memWrite a v).breakpoint = s.breakpoint := rfl
@[simp] theorem memWrite_status (a v : Int) : (s.memWrite a v).status = s.status := rfl
@[simp] theorem memWrite_dataOut (a v : Int) : (s.memWrite a v).dataOut = s.dataOut := rfl
@[simp] theorem memWrite_diagOut (a v : Int) : (s.memWrite a v).diagOut = s.diagOut := rfl
@[simp] theorem memWrite_cmdIn (a v : Int) : (s.memWrite a v).cmdIn = s.cmdIn := rfl
@[simp] theorem memWrite_loaderIn (a v : Int) : (s.memWrite a v).loaderIn = s.loaderIn := rfl
@[simp] theorem memWrite_wait (a v : Int) : (s.memWrite a v).wait = s.wait := rfl

@[simp] theorem emitData_cfg (v : Int) : (s.emitData v).cfg = s.cfg := rfl
@[simp] theorem emitData_regs (v : Int) : (s.emitData v).regs = s.regs := rfl
@[simp] theorem emitData_mem (v : Int) : (s.emitData v).mem = s.mem := rfl
@[simp] theorem emitData_debugEnabled (v : Int) : (s.emitData v).debugEnabled = s.debugEnabled := rfl
@[simp] theorem emitData_paused (v : Int) : (s.emitData v).paused = s.paused := rfl
@[simp] theorem emitData_breakpoint (v : Int) : (s.emitData v).breakpoint = s.breakpoint := rfl
@[simp] theorem emitData_status (v : Int) : (s.emitData v).status = s.status := rfl
@[simp] theorem emitData_dataOut (v : Int) : (s.emitData v).dataOut = s.dataOut ++ [v] := rfl
@[simp] theorem emitData_diagOut (v : Int) : (s.emitData v).diagOut = s.diagOut := rfl
@[simp] theorem emitData_cmdIn (v : Int) : (s.emitData v).cmdIn = s.cmdIn := rfl
@[simp] theorem emitData_loaderIn (v : Int) : (s.emitData v).loaderIn = s.loaderIn := rfl
@[simp] theorem emitData_wait (v : Int) : (s.emitData v).wait = s.wait := rfl

@[simp] theorem emitDiag_cfg (e : DiagEvent) : (s.emitDiag e).cfg = s.cfg := rfl
@[simp] theorem emitDiag_regs (e : DiagEvent) : (s.emitDiag e).regs = s.regs := rfl
@[simp] theorem emitDiag_mem (e : DiagEvent) : (s.emitDiag e).mem = s.mem := rfl
@[simp] theorem emitDiag_debugEnabled (e : DiagEvent) : (s.emitDiag e).debugEnabled = s.debugEnabled := rfl
@[simp] theorem emitDiag_paused (e : DiagEvent) : (s.emitDiag e).paused = s.paused := rfl
@[simp] theorem emitDiag_breakpoint (e : DiagEvent) : (s.emitDiag e).breakpoint = s.breakpoint := rfl
@[simp] theorem emitDiag_status (e : DiagEvent) : (s.emitDiag e).status = s.status := rfl
@[simp] theorem emitDiag_dataOut (e : DiagEvent) : (s.emitDiag e).dataOut = s.dataOut := rfl
@[simp] theorem emitDiag_diagOut (e : DiagEvent) : (s.emitDiag e).diagOut = s.diagOut ++ [e] := rfl
@[simp] theorem emitDiag_cmdIn (e : DiagEvent) : (s.emitDiag e).cmdIn = s.cmdIn := rfl
@[simp] theorem emitDiag_loaderIn (e : DiagEvent) : (s.emitDiag e).loaderIn = s.loaderIn := rfl
@[simp] theorem emitDiag_wait (e : DiagEvent) : (s.emitDiag e).wait = s.wait := rfl

@[simp] theorem exit_cfg (c : Int) : (s.exit c).cfg = s.cfg := rfl
@[simp] theorem exit_regs (c : Int) : (s.exit c).regs = s.regs := rfl
@[simp] theorem exit_mem (c : Int) : (s.exit c).mem = s.mem := rfl
@[simp] theorem exit_debugEnabled (c : Int) : (s.exit c).debugEnabled = s.debugEnabled := rfl
@[simp] theorem exit_paused (c : Int) : (s.exit c).paused = s.paused := rfl
@[simp] theorem exit_breakpoint (c : Int) : (s.exit c).breakpoint = s.breakpoint := rfl
@[simp] theorem exit_status (c : Int) : (s.exit c).status = .exited c := rfl
@[simp] theorem exit_dataOut (c : Int) : (s.exit c).dataOut = s.dataOut := rfl
@[simp] theorem exit_diagOut (c : Int) : (s.exit c).diagOut = s.diagOut := rfl
@[simp] theorem exit_cmdIn (c : Int) : (s.exit c).cmdIn = s.cmdIn := rfl
@[simp] theorem exit_loaderIn (c : Int) : (s.exit c).loaderIn = s.loaderIn := rfl
@[simp] theorem exit_wait (c : Int) : (s.exit c).wait = s.wait := rfl

@[simp] theorem advance_cfg (f : Format) : (s.advance f).cfg = s.cfg := rfl
@[simp] theorem advance_regs (f : Format) : (s.advance f).regs = s.regs.set Reg.ip.val (s.ip + f.length) Reg.ip.isLt := rfl
@[simp] theorem advance_mem (f : Format) : (s.advance f).mem = s.mem := rfl
@[simp] theorem advance_debugEnabled (f : Format) : (s.advance f).debugEnabled = s.debugEnabled := rfl
@[simp] theorem advance_paused (f : Format) : (s.advance f).paused = s.paused := rfl
@[simp] theorem advance_breakpoint (f : Format) : (s.advance f).breakpoint = s.breakpoint := rfl
@[simp] theorem advance_status (f : Format) : (s.advance f).status = s.status := rfl
@[simp] theorem advance_dataOut (f : Format) : (s.advance f).dataOut = s.dataOut := rfl
@[simp] theorem advance_diagOut (f : Format) : (s.advance f).diagOut = s.diagOut := rfl
@[simp] theorem advance_cmdIn (f : Format) : (s.advance f).cmdIn = s.cmdIn := rfl
@[simp] theorem advance_loaderIn (f : Format) : (s.advance f).loaderIn = s.loaderIn := rfl
@[simp] theorem advance_wait (f : Format) : (s.advance f).wait = s.wait := rfl

@[simp] theorem load_cfg (image : List Int) : (s.load image).cfg = s.cfg := rfl
@[simp] theorem load_regs (image : List Int) : (s.load image).regs = loadedRegs image.length := rfl
@[simp] theorem load_mem (image : List Int) : (s.load image).mem = Memory.ofImage 0 image := rfl
@[simp] theorem load_debugEnabled (image : List Int) : (s.load image).debugEnabled = s.debugEnabled := rfl
@[simp] theorem load_paused (image : List Int) : (s.load image).paused = s.paused := rfl
@[simp] theorem load_breakpoint (image : List Int) : (s.load image).breakpoint = s.breakpoint := rfl
@[simp] theorem load_status (image : List Int) : (s.load image).status = s.status := rfl
@[simp] theorem load_dataOut (image : List Int) : (s.load image).dataOut = s.dataOut := rfl
@[simp] theorem load_diagOut (image : List Int) : (s.load image).diagOut = s.diagOut := rfl
@[simp] theorem load_cmdIn (image : List Int) : (s.load image).cmdIn = s.cmdIn := rfl
@[simp] theorem load_loaderIn (image : List Int) : (s.load image).loaderIn = s.loaderIn := rfl
@[simp] theorem load_wait (image : List Int) : (s.load image).wait = .nothing := rfl

@[simp] theorem loadFailed_cfg (k : LoadErrorKind) : (s.loadFailed k).cfg = s.cfg := rfl
@[simp] theorem loadFailed_regs (k : LoadErrorKind) : (s.loadFailed k).regs = s.regs := rfl
@[simp] theorem loadFailed_mem (k : LoadErrorKind) : (s.loadFailed k).mem = s.mem := rfl
@[simp] theorem loadFailed_debugEnabled (k : LoadErrorKind) : (s.loadFailed k).debugEnabled = s.debugEnabled := rfl
@[simp] theorem loadFailed_paused (k : LoadErrorKind) : (s.loadFailed k).paused = s.paused := rfl
@[simp] theorem loadFailed_breakpoint (k : LoadErrorKind) : (s.loadFailed k).breakpoint = s.breakpoint := rfl
@[simp] theorem loadFailed_status (k : LoadErrorKind) : (s.loadFailed k).status = .exited s.cfg.exitFailure := rfl
@[simp] theorem loadFailed_dataOut (k : LoadErrorKind) : (s.loadFailed k).dataOut = s.dataOut := rfl
@[simp] theorem loadFailed_diagOut (k : LoadErrorKind) : (s.loadFailed k).diagOut = s.diagOut ++ [.loadError k] := rfl
@[simp] theorem loadFailed_cmdIn (k : LoadErrorKind) : (s.loadFailed k).cmdIn = s.cmdIn := rfl
@[simp] theorem loadFailed_loaderIn (k : LoadErrorKind) : (s.loadFailed k).loaderIn = s.loaderIn := rfl
@[simp] theorem loadFailed_wait (k : LoadErrorKind) : (s.loadFailed k).wait = .nothing := rfl

@[simp] theorem received_cfg (rest : List CmdIn) : (received s rest).cfg = s.cfg := rfl
@[simp] theorem received_regs (rest : List CmdIn) : (received s rest).regs = s.regs := rfl
@[simp] theorem received_mem (rest : List CmdIn) : (received s rest).mem = s.mem := rfl
@[simp] theorem received_debugEnabled (rest : List CmdIn) : (received s rest).debugEnabled = s.debugEnabled := rfl
@[simp] theorem received_paused (rest : List CmdIn) : (received s rest).paused = (s.paused || decide (AtBreakpoint s)) := rfl
@[simp] theorem received_breakpoint (rest : List CmdIn) : (received s rest).breakpoint = s.breakpoint := rfl
@[simp] theorem received_status (rest : List CmdIn) : (received s rest).status = s.status := rfl
@[simp] theorem received_dataOut (rest : List CmdIn) : (received s rest).dataOut = s.dataOut := rfl
@[simp] theorem received_diagOut (rest : List CmdIn) : (received s rest).diagOut =
    s.diagOut ++ (hitEvents s ++ if s.wait = .command then [] else [.prompt s.ip]) := rfl
@[simp] theorem received_cmdIn (rest : List CmdIn) : (received s rest).cmdIn = rest := rfl
@[simp] theorem received_loaderIn (rest : List CmdIn) : (received s rest).loaderIn = s.loaderIn := rfl
@[simp] theorem received_wait (rest : List CmdIn) : (received s rest).wait = .nothing := rfl

/-- Instruction lengths (R72). -/
@[simp] theorem length_f0 : Format.f0.length = 1 := rfl
@[simp] theorem length_f1r : Format.f1r.length = 2 := rfl
@[simp] theorem length_f2rr : Format.f2rr.length = 3 := rfl
@[simp] theorem length_f2ir : Format.f2ir.length = 3 := rfl

/-- Setting a register leaves memory reads alone, and writing memory leaves registers alone. -/
@[simp] theorem memRead_setReg (r : Reg) (v a : Int) : (s.setReg r v).memRead a = s.memRead a := rfl
@[simp] theorem memRead_advance (f : Format) (a : Int) : (s.advance f).memRead a = s.memRead a := rfl
@[simp] theorem reg_memWrite (a v : Int) (r : Reg) : (s.memWrite a v).reg r = s.reg r := rfl
@[simp] theorem reg_emitData (v : Int) (r : Reg) : (s.emitData v).reg r = s.reg r := rfl
@[simp] theorem reg_emitDiag (e : DiagEvent) (r : Reg) : (s.emitDiag e).reg r = s.reg r := rfl
@[simp] theorem reg_exit (c : Int) (r : Reg) : (s.exit c).reg r = s.reg r := rfl
@[simp] theorem ip_received (rest : List CmdIn) : (received s rest).ip = s.ip := rfl
@[simp] theorem reg_received (rest : List CmdIn) (r : Reg) : (received s rest).reg r = s.reg r := rfl

/-- A register read after a register write. -/
theorem reg_setReg (r q : Reg) (v : Int) : (s.setReg r v).reg q = if q = r then v else s.reg q := by
  simp only [State.reg, State.setReg, Fin.getElem_fin, Vector.getElem_set]
  simp only [Fin.ext_iff, eq_comm]

@[simp] theorem reg_setReg_same (r : Reg) (v : Int) : (s.setReg r v).reg r = v := by simp [reg_setReg]

theorem reg_setReg_other {r q : Reg} (v : Int) (h : q ≠ r) : (s.setReg r v).reg q = s.reg q := by simp [reg_setReg, h]

/-- A register read in the advanced working copy is a read during the effect (R94). -/
@[simp] theorem reg_advance (f : Format) (r : Reg) : (s.advance f).reg r = readDuring s f.length r := by
  simp [State.advance, reg_setReg, readDuring]

/-- Two states are equal registers when they read equal ones. -/
theorem regs_ext {s t : State} (h : ∀ r, t.reg r = s.reg r) : t.regs = s.regs := by
  apply Vector.ext
  intro i hi
  exact h ⟨i, hi⟩

/-- What the registers are after `Load` (R301). -/
theorem reg_load (image : List Int) (r : Reg) :
    (s.load image).reg r = if r = Reg.fp ∨ r = Reg.sp then (image.length : Int) else 0 := by
  simp only [State.reg, State.load, loadedRegs, Fin.getElem_fin, Vector.getElem_set, Vector.getElem_replicate, Fin.ext_iff]
  grind

end Sys2Proof.Machine
end

