-- ==== Sys2Proof/Laws/Ops.lean ====
section
/-! SUPPORT. What each shared operation can do, said once. -/

namespace Sys2Proof.Machine

theorem sameMemory_refl (s : State) : SameMemory s s := fun _ => rfl

theorem sameSetting_refl (s : State) : SameSetting s s := ⟨rfl, rfl, rfl, rfl, rfl, rfl⟩

theorem sameSession_refl (s : State) : SameSession s s := ⟨sameSetting_refl s, rfl, rfl⟩

/-- Taking a fault does what R96, R206 and R207 say. -/
theorem takeFault_spec (f : ExecFault) (s : State) : FaultTaken f s (takeFault f s) := by
  cases h : s.debugEnabled <;>
    simp [takeFault, FaultTaken, SameSnapshot, SameMemory, SameSetting, State.reg, State.exit, h]

/-- Taking a fault keeps memory itself. -/
@[simp] theorem takeFault_mem (f : ExecFault) (s : State) : (takeFault f s).mem = s.mem := by
  simp only [takeFault]
  split <;> rfl

@[simp] theorem takeFault_regs (f : ExecFault) (s : State) : (takeFault f s).regs = s.regs := by
  simp only [takeFault]
  split <;> rfl

/-- The two answers of the address decoder. -/
theorem inRange_iff {c : Config} {a : Int} : inRange c a = true ↔ 0 ≤ a ∧ a < c.memWords := by simp [inRange]

theorem withRead_inRange {w : State} {a : Int} (k : Int → StepOutcome) (h : inRange w.cfg a = true) :
    withRead w a k = k (w.memRead a) := if_pos h

theorem withRead_outOfRange {w : State} {a : Int} (k : Int → StepOutcome) (h : ¬ inRange w.cfg a = true) :
    withRead w a k = .faulted (.memOutOfRange a .read) := if_neg h

theorem withWrite_inRange {w : State} {a v : Int} (k : State → StepOutcome) (h : inRange w.cfg a = true) :
    withWrite w a v k = k (w.memWrite a v) := if_pos h

theorem withWrite_outOfRange {w : State} {a v : Int} (k : State → StepOutcome) (h : ¬ inRange w.cfg a = true) :
    withWrite w a v k = .faulted (.memOutOfRange a .write) := if_neg h

/-- The key of an address the decoder accepts is below MEM_WORDS. -/
theorem addrOf_lt {c : Config} {a : Int} (h : inRange c a = true) : addrOf a < c.memWords := by
  have := inRange_iff.mp h
  simp only [addrOf]
  omega

/-- A committed outcome is always a next state. -/
theorem commit_next {s t : State} {o : StepOutcome} : commit s o = .next t ↔ settle s o = t := by simp [commit]

/-- What the engine's working copy may differ in from the state it started from: registers, memory kept canonical and in
bounds, and more program output. -/
def EngineWrote (s t : State) : Prop :=
  SameSession s t ∧ t.status = s.status ∧ s.dataOut <+: t.dataOut ∧
    (s.mem.wf = true → t.mem.wf = true) ∧
    ((∀ c ∈ s.mem, c.1 < s.cfg.memWords) → ∀ c ∈ t.mem, c.1 < s.cfg.memWords)

/-- An outcome whose working copy, if there is one, is an engine's. -/
def EngineOutcome (s : State) (o : StepOutcome) : Prop := ∀ t, o = .continued t ∨ o = .halted t → EngineWrote s t

theorem engineWrote_refl (s : State) : EngineWrote s s :=
  ⟨sameSession_refl s, rfl, List.prefix_refl _, id, id⟩

theorem EngineWrote.setReg {s t : State} (h : EngineWrote s t) (r : Reg) (v : Int) : EngineWrote s (t.setReg r v) := h

theorem EngineWrote.advance {s t : State} (h : EngineWrote s t) (f : Format) : EngineWrote s (t.advance f) := h

theorem EngineWrote.emitData {s t : State} (h : EngineWrote s t) (v : Int) : EngineWrote s (t.emitData v) :=
  ⟨h.1, h.2.1, h.2.2.1.trans (List.prefix_append _ _), h.2.2.2⟩

theorem EngineWrote.memWrite {s t : State} (h : EngineWrote s t) {a v : Int} (ha : inRange t.cfg a = true) :
    EngineWrote s (t.memWrite a v) := by
  refine ⟨h.1, h.2.1, h.2.2.1, fun hw => write_wf _ _ (h.2.2.2.1 hw), fun hb => ?_⟩
  have hc : t.cfg = s.cfg := h.1.1.1
  exact write_bound _ (h.2.2.2.2 hb) (hc ▸ addrOf_lt ha)

theorem engineOutcome_continued {s t : State} (h : EngineWrote s t) : EngineOutcome s (.continued t) := by
  rintro u (hu | hu) <;> cases hu
  exact h

theorem engineOutcome_halted {s t : State} (h : EngineWrote s t) : EngineOutcome s (.halted t) := by
  rintro u (hu | hu) <;> cases hu
  exact h

theorem engineOutcome_faulted (s : State) (f : ExecFault) : EngineOutcome s (.faulted f) := by
  rintro u (hu | hu) <;> cases hu

theorem EngineWrote.withRead {s w : State} {a : Int} {k : Int → StepOutcome} (hk : ∀ v, EngineOutcome s (k v)) :
    EngineOutcome s (withRead w a k) := by
  unfold Machine.withRead
  split
  · exact hk _
  · exact engineOutcome_faulted _ _

theorem EngineWrote.withWrite {s w : State} (h : EngineWrote s w) {a v : Int} {k : State → StepOutcome}
    (hk : ∀ t, EngineWrote s t → EngineOutcome s (k t)) : EngineOutcome s (withWrite w a v k) := by
  unfold Machine.withWrite
  split
  · rename_i ha
    exact hk _ (h.memWrite ha)
  · exact engineOutcome_faulted _ _

/-! What keeps every stored word a word (R13). -/

theorem State.HoldsWords.reg {s : State} (h : s.HoldsWords) (r : Reg) : s.cfg.IsWord (s.reg r) := h.1 r

theorem zero_isWord (c : Config) : c.IsWord 0 := by
  have hp : 0 < 2 ^ (c.wordBits - 1) := Nat.two_pow_pos _
  constructor <;> omega

theorem State.HoldsWords.read {s : State} (h : s.HoldsWords) (a : Nat) : s.cfg.IsWord (s.mem.read a) :=
  read_mem (P := fun v => s.cfg.IsWord v) (zero_isWord _) h.2.1 a

theorem State.HoldsWords.setReg {s : State} (h : s.HoldsWords) (r : Reg) {v : Int} (hv : s.cfg.IsWord v) :
    (s.setReg r v).HoldsWords := by
  refine ⟨fun q => ?_, h.2⟩
  rw [reg_setReg]
  split
  · exact hv
  · exact h.1 q

theorem State.HoldsWords.memWrite {s : State} (h : s.HoldsWords) (a : Int) {v : Int} (hv : s.cfg.IsWord v) :
    (s.memWrite a v).HoldsWords := by
  refine ⟨h.1, fun c hc => ?_, h.2.2⟩
  rcases mem_write hc with hc | rfl
  · exact h.2.1 c hc
  · exact hv

theorem State.HoldsWords.emitData {s : State} (h : s.HoldsWords) {v : Int} (hv : s.cfg.IsWord v) :
    (s.emitData v).HoldsWords := by
  refine ⟨h.1, h.2.1, h.2.2.1, fun w hw => ?_, h.2.2.2.2⟩
  rcases List.mem_append.mp hw with hw | hw
  · exact h.2.2.2.1 w hw
  · rw [List.mem_singleton.mp hw]
    exact hv

/-- The advance past a fetched instruction stays a word (R26). -/
theorem State.HoldsWords.advance {s : State} (h : s.HoldsWords) (hc : s.cfg.Valid) (hi : inRange s.cfg s.ip = true) (f : Format) :
    (s.advance f).HoldsWords := by
  refine h.setReg _ ?_
  have := inRange_iff.mp hi
  have hl : f.length ≤ 3 := by cases f <;> decide
  have := hc.2.1
  constructor <;> omega

/-- Taking a fault keeps the stored words. -/
theorem State.HoldsWords.takeFault {s : State} (h : s.HoldsWords) (f : ExecFault) : (Machine.takeFault f s).HoldsWords := by
  simp only [Machine.takeFault]
  split <;> exact h

/-- A load of an image of words holds words (R301). -/
theorem State.HoldsWords.load {s : State} (h : s.HoldsWords) (hc : s.cfg.Valid) {image : List Int}
    (hi : ∀ v ∈ image, s.cfg.IsWord v) (hl : image.length ≤ s.cfg.memWords) : (s.load image).HoldsWords := by
  refine ⟨fun r => ?_, fun c hm => hi _ (mem_ofImage_val hm), h.2.2⟩
  show s.cfg.IsWord _
  have := hc.2.1
  rw [reg_load]
  constructor <;> split <;> omega

end Sys2Proof.Machine
end

