-- ==== Sys2Proof/Laws/Engine.lean ====
section
/-! SUPPORT. What one run of the engine, and one step of the block, can do, said once. -/

namespace Sys2Proof.Machine

/-- Every meaning commits an outcome of the engine. -/
theorem exec_commits (i : Instr) (s : State) : ∃ o, exec i s = commit s o ∧ EngineOutcome s o := by
  have w := engineWrote_refl s
  cases i with
  | movi imm rd => exact ⟨_, rfl, engineOutcome_continued ((w.advance _).setReg _ _)⟩
  | mov rs rd => exact ⟨_, rfl, engineOutcome_continued ((w.advance _).setReg _ _)⟩
  | add rs rd => exact ⟨_, rfl, engineOutcome_continued ((w.advance _).setReg _ _)⟩
  | sub rs rd => exact ⟨_, rfl, engineOutcome_continued ((w.advance _).setReg _ _)⟩
  | mul rs rd => exact ⟨_, rfl, engineOutcome_continued ((w.advance _).setReg _ _)⟩
  | idiv rs rd =>
    refine ⟨_, rfl, ?_⟩
    split
    · exact engineOutcome_faulted _ _
    · split
      · exact engineOutcome_faulted _ _
      · exact engineOutcome_continued ((w.advance _).setReg _ _)
  | jmp ra => exact ⟨_, rfl, engineOutcome_continued ((w.advance _).setReg _ _)⟩
  | jnz rs ra =>
    refine ⟨_, rfl, engineOutcome_continued ?_⟩
    split
    · exact (w.advance _).setReg _ _
    · exact w.advance _
  | out rs => exact ⟨_, rfl, engineOutcome_continued ((w.advance _).emitData _)⟩
  | halt => exact ⟨_, rfl, engineOutcome_halted (w.advance _)⟩
  | ld ra rd => exact ⟨_, rfl, EngineWrote.withRead fun _ => engineOutcome_continued ((w.advance _).setReg _ _)⟩
  | st ra rs => exact ⟨_, rfl, (w.advance _).withWrite fun _ ht => engineOutcome_continued ht⟩
  | jal ra => exact ⟨_, rfl, engineOutcome_continued (((w.advance _).setReg _ _).setReg _ _)⟩
  | ret => exact ⟨_, rfl, engineOutcome_continued ((w.advance _).setReg _ _)⟩
  | push rs => exact ⟨_, rfl, (w.advance _).withWrite fun _ ht => engineOutcome_continued (ht.setReg _ _)⟩
  | pop rd =>
    exact ⟨_, rfl, EngineWrote.withRead fun _ => engineOutcome_continued (((w.advance _).setReg _ _).setReg _ _)⟩
  | ldlo imm rd => exact ⟨_, rfl, EngineWrote.withRead fun _ => engineOutcome_continued ((w.advance _).setReg _ _)⟩
  | stlo imm rs => exact ⟨_, rfl, (w.advance _).withWrite fun _ ht => engineOutcome_continued ht⟩

/-- A run of the engine is a decoded instruction's meaning, or a fault of the fetch. -/
theorem runEngine_cases (s : State) :
    (∃ i rest, decode s.fetched = .ok (i, rest) ∧ runEngine s = exec i s) ∨
      ∃ e, decode s.fetched = .error e ∧ runEngine s = .next (takeFault (fetchFault s.ip e) s) := by
  unfold runEngine
  split
  · rename_i i rest h
    exact .inl ⟨i, rest, h, rfl⟩
  · rename_i e h
    exact .inr ⟨e, h, rfl⟩

/-- A run of the engine commits an outcome of the engine. -/
theorem runEngine_commits (s : State) : ∃ o, runEngine s = commit s o ∧ EngineOutcome s o := by
  rcases runEngine_cases s with ⟨i, rest, -, h⟩ | ⟨e, -, h⟩
  · rw [h]
    exact exec_commits i s
  · exact ⟨.faulted _, h, engineOutcome_faulted _ _⟩

/-- What a next state of the engine is: the working copy, the working copy with the run ended, or a fault taken. -/
theorem runEngine_next {s t : State} (h : runEngine s = .next t) :
    EngineWrote s t ∨ (∃ w, EngineWrote s w ∧ t = w.exit exitOk) ∨ ∃ f, t = takeFault f s := by
  obtain ⟨o, ho, hw⟩ := runEngine_commits s
  rw [ho, commit_next] at h
  cases o with
  | continued w => exact .inl (h ▸ hw w (.inl rfl))
  | halted w => exact .inr (.inl ⟨w, hw w (.inr rfl), h.symm⟩)
  | faulted f => exact .inr (.inr ⟨f, h.symm⟩)

/-- The engine always answers a next state. -/
theorem runEngine_answers (s : State) : ∃ t, runEngine s = .next t := by
  obtain ⟨o, ho, -⟩ := runEngine_commits s
  exact ⟨_, ho⟩

/-- What a step of a free-running block is. -/
theorem step_of_runsFreely {s : State} (h : RunsFreely s) : step s = runEngine s := by
  obtain ⟨h1, h2, h3⟩ := h
  have hb : breakpointCheck s = s := by
    unfold breakpointCheck
    rw [if_neg]
    rintro ⟨hd, -, hp⟩
    exact (h3 hd).2 hp
  have hp : ¬ (s.debugEnabled = true ∧ s.paused = true) := by
    rintro ⟨hd, hp⟩
    simp [(h3 hd).1] at hp
  simp [step, blockStep, h1, h2, iteration, hb, hp]

theorem hitEvents_at {s : State} (h : AtBreakpoint s) : hitEvents s = [.breakpointHit s.ip] := if_pos h

theorem hitEvents_not {s : State} (h : ¬ AtBreakpoint s) : hitEvents s = [] := if_neg h

/-- What a step of a block that listens to `cmd_in` is. -/
theorem step_of_listens {s : State} (h : Listens s) :
    step s = match s.cmdIn with
      | [] => .next { received s [] with wait := .command }
      | c :: rest => handleInput c (received s rest) := by
  obtain ⟨h1, ⟨h2, h3, h4⟩ | h2 | h2⟩ := h
  · have hn : ¬ AtBreakpoint s := fun h => nomatch h4.symm.trans h.2.2.1
    have hb : breakpointCheck s = s := by simp [breakpointCheck, h4]
    cases hc : s.cmdIn <;>
      simp [step, blockStep, h1, h2, iteration, hb, h3, h4, receiveCommand, received, hitEvents_not hn, State.emitDiag, hc]
  · have hr : ∀ rest, received s rest = { s with
        cmdIn := rest
        wait := .nothing
        paused := true
        diagOut := s.diagOut ++ ([.breakpointHit s.ip] ++ [.prompt s.ip]) } := by
      intro rest
      simp [received, hitEvents_at h2, h2]
    obtain ⟨h3, h4, h5, h6⟩ := h2
    have hb : breakpointCheck s = { s with paused := true }.emitDiag (.breakpointHit s.ip) := by
      simp [breakpointCheck, h4, h5, h6, State.ip, State.reg]
    cases hc : s.cmdIn <;> simp [step, blockStep, h1, h3, iteration, hb, hr, h4, receiveCommand, hc] <;> rfl
  · have hn : ¬ AtBreakpoint s := fun h => nomatch h2.symm.trans h.1
    cases hc : s.cmdIn <;>
      simp [step, blockStep, h1, h2, receiveCommand, received, hitEvents_not hn, hc]

/-- What a step of a block that receives a transaction is. -/
theorem step_of_receives {s : State} {c : CmdIn} {rest : List CmdIn} (h : Receives s c rest) :
    step s = handleInput c (received s rest) := by
  rw [step_of_listens h.1, h.2]

/-- A running block waits for the loader, listens to `cmd_in`, or runs freely. -/
theorem running_cases {s : State} (h : s.status = .running) : s.wait = .loader ∨ Listens s ∨ RunsFreely s := by
  cases hw : s.wait with
  | loader => exact .inl rfl
  | command => exact .inr (.inl ⟨h, .inr (.inr hw)⟩)
  | nothing =>
    refine .inr ?_
    cases hd : s.debugEnabled with
    | false => exact .inr ⟨h, hw, fun hd' => by simp [hd] at hd'⟩
    | true =>
      cases hp : s.paused with
      | true => exact .inl ⟨h, .inl ⟨hw, hd, hp⟩⟩
      | false =>
        by_cases hb : s.breakpoint = some s.ip
        · exact .inl ⟨h, .inr (.inl ⟨hw, hd, hp, hb⟩)⟩
        · exact .inr ⟨h, hw, fun _ => ⟨hp, hb⟩⟩

/-- A step answers a next state only while the block runs (R11, R32). -/
theorem running_of_step {s t : State} (h : step s = .next t) : s.status = .running := by
  unfold step blockStep at h
  split at h
  · cases h
  · assumption

end Sys2Proof.Machine
end

