-- ==== Sys2Proof/Laws/PerInstr.lean ====
section
/-! SUPPORT. The family Encoding: what every instruction's encoding is as a sequence of words (R70, R71, R76). -/

namespace Sys2Proof.Laws.Encoding

/-- The encoding begins with the instruction's tag, has the length of its format, and is a well-formed instruction. -/
def Statement (i : Instr) : Prop :=
  (encode i).head? = some i.tag ∧ formatOfTag i.tag = some i.format ∧ (encode i).length = i.length ∧
    WellFormed (encode i) = true

theorem accepts_word (r : Reg) : OperandKind.reg.accepts r.word = true :=
  (Laws.Decode.reg_accepts_iff _).mpr r.word_inRange

theorem movi (imm : Int) (rd : Reg) : Statement (.movi imm rd) := by
  simp [Statement, encode, Instr.tag, Instr.format, Instr.length, Format.length, Format.operands, formatOfTag, WellFormed,
    operandsAccept, accepts_word, OperandKind.accepts.eq_1]

theorem mov (rs rd : Reg) : Statement (.mov rs rd) := by
  simp [Statement, encode, Instr.tag, Instr.format, Instr.length, Format.length, Format.operands, formatOfTag, WellFormed,
    operandsAccept, accepts_word]

theorem add (rs rd : Reg) : Statement (.add rs rd) := by
  simp [Statement, encode, Instr.tag, Instr.format, Instr.length, Format.length, Format.operands, formatOfTag, WellFormed,
    operandsAccept, accepts_word]

theorem sub (rs rd : Reg) : Statement (.sub rs rd) := by
  simp [Statement, encode, Instr.tag, Instr.format, Instr.length, Format.length, Format.operands, formatOfTag, WellFormed,
    operandsAccept, accepts_word]

theorem mul (rs rd : Reg) : Statement (.mul rs rd) := by
  simp [Statement, encode, Instr.tag, Instr.format, Instr.length, Format.length, Format.operands, formatOfTag, WellFormed,
    operandsAccept, accepts_word]

theorem idiv (rs rd : Reg) : Statement (.idiv rs rd) := by
  simp [Statement, encode, Instr.tag, Instr.format, Instr.length, Format.length, Format.operands, formatOfTag, WellFormed,
    operandsAccept, accepts_word]

theorem jmp (ra : Reg) : Statement (.jmp ra) := by
  simp [Statement, encode, Instr.tag, Instr.format, Instr.length, Format.length, Format.operands, formatOfTag, WellFormed,
    operandsAccept, accepts_word]

theorem jnz (rs ra : Reg) : Statement (.jnz rs ra) := by
  simp [Statement, encode, Instr.tag, Instr.format, Instr.length, Format.length, Format.operands, formatOfTag, WellFormed,
    operandsAccept, accepts_word]

theorem out (rs : Reg) : Statement (.out rs) := by
  simp [Statement, encode, Instr.tag, Instr.format, Instr.length, Format.length, Format.operands, formatOfTag, WellFormed,
    operandsAccept, accepts_word]

theorem halt : Statement (.halt) := by
  simp [Statement, encode, Instr.tag, Instr.format, Instr.length, Format.length, Format.operands, formatOfTag, WellFormed,
    operandsAccept]

theorem ld (ra rd : Reg) : Statement (.ld ra rd) := by
  simp [Statement, encode, Instr.tag, Instr.format, Instr.length, Format.length, Format.operands, formatOfTag, WellFormed,
    operandsAccept, accepts_word]

theorem st (ra rs : Reg) : Statement (.st ra rs) := by
  simp [Statement, encode, Instr.tag, Instr.format, Instr.length, Format.length, Format.operands, formatOfTag, WellFormed,
    operandsAccept, accepts_word]

theorem jal (ra : Reg) : Statement (.jal ra) := by
  simp [Statement, encode, Instr.tag, Instr.format, Instr.length, Format.length, Format.operands, formatOfTag, WellFormed,
    operandsAccept, accepts_word]

theorem ret : Statement (.ret) := by
  simp [Statement, encode, Instr.tag, Instr.format, Instr.length, Format.length, Format.operands, formatOfTag, WellFormed,
    operandsAccept]

theorem push (rs : Reg) : Statement (.push rs) := by
  simp [Statement, encode, Instr.tag, Instr.format, Instr.length, Format.length, Format.operands, formatOfTag, WellFormed,
    operandsAccept, accepts_word]

theorem pop (rd : Reg) : Statement (.pop rd) := by
  simp [Statement, encode, Instr.tag, Instr.format, Instr.length, Format.length, Format.operands, formatOfTag, WellFormed,
    operandsAccept, accepts_word]

theorem ldlo (imm : Int) (rd : Reg) : Statement (.ldlo imm rd) := by
  simp [Statement, encode, Instr.tag, Instr.format, Instr.length, Format.length, Format.operands, formatOfTag, WellFormed,
    operandsAccept, accepts_word, OperandKind.accepts.eq_1]

theorem stlo (imm : Int) (rs : Reg) : Statement (.stlo imm rs) := by
  simp [Statement, encode, Instr.tag, Instr.format, Instr.length, Format.length, Format.operands, formatOfTag, WellFormed,
    operandsAccept, accepts_word, OperandKind.accepts.eq_1]

end Sys2Proof.Laws.Encoding
end

