-- ==== Sys2Proof/Laws/Session.lean ====
section
/-! SUPPORT. Everything one step of the block can do, said once, and what the session does around the engine. -/

namespace Sys2Proof.Machine

/-- The ways a step of the block answers a next state: the engine runs once, the loader's answer is requested, a command that
does neither is carried out, a line is not understood, or the block waits for a command. -/
theorem step_cases {s t : State} (h : step s = .next t) :
    (∃ u, EngineRunsFrom s u ∧ runEngine u = .next t) ∨
      (∃ u, LoadRequestedFrom s u ∧ t = requestLoader u) ∨
      (∃ w arg rest c, Receives s (.line w arg) rest ∧ decodeCommand w = .command c ∧ c ≠ .step ∧ c ≠ .cont ∧ c ≠ .restart ∧
        runCommand c arg (received s rest) = .next t) ∨
      (∃ w arg rest, Receives s (.line w arg) rest ∧ (decodeCommand w = .noMatch ∨ decodeCommand w = .ambiguous) ∧
        t = received s rest) ∨
      (Listens s ∧ s.cmdIn = [] ∧ t = { received s [] with wait := .command }) := by
  have hs := running_of_step h
  rcases running_cases hs with hw | hl | hf
  · refine .inr (.inl ⟨s, .inl ⟨hs, hw, rfl⟩, ?_⟩)
    simpa [step, blockStep, hs, hw, eq_comm] using h
  · cases hc : s.cmdIn with
    | nil =>
      rw [step_of_listens hl, hc] at h
      injection h with h
      exact .inr (.inr (.inr (.inr ⟨hl, rfl, h.symm⟩)))
    | cons c rest =>
      have hr : Receives s c rest := ⟨hl, hc⟩
      rw [step_of_receives hr] at h
      cases c with
      | endOfInput => exact .inl ⟨_, .inr (.inl ⟨rest, hr, rfl⟩), h⟩
      | line w arg =>
        simp only [handleInput, dispatchLine] at h
        split at h
        · rename_i c hd
          by_cases h1 : c = .step
          · subst h1
            exact .inl ⟨_, .inr (.inr ⟨w, arg, rest, hr, .inl ⟨hd, rfl⟩⟩), h⟩
          by_cases h2 : c = .cont
          · subst h2
            exact .inl ⟨_, .inr (.inr ⟨w, arg, rest, hr, .inr ⟨hd, rfl⟩⟩), h⟩
          by_cases h3 : c = .restart
          · subst h3
            injection h with h
            exact .inr (.inl ⟨_, .inr ⟨w, arg, rest, hr, hd, rfl⟩, h.symm⟩)
          exact .inr (.inr (.inl ⟨w, arg, rest, c, hr, hd, h1, h2, h3, h⟩))
        · rename_i hd
          injection h with h
          exact .inr (.inr (.inr (.inl ⟨w, arg, rest, hr, .inl hd, h.symm⟩)))
        · rename_i hd
          injection h with h
          exact .inr (.inr (.inr (.inl ⟨w, arg, rest, hr, .inr hd, h.symm⟩)))
  · rw [step_of_runsFreely hf] at h
    exact .inl ⟨s, .inl ⟨hf, rfl⟩, h⟩

/-- What a step that runs the engine is. -/
theorem step_of_engineRunsFrom {s u : State} (h : EngineRunsFrom s u) : step s = runEngine u := by
  rcases h with ⟨h, rfl⟩ | ⟨rest, h, rfl⟩ | ⟨w, arg, rest, h, ⟨hd, rfl⟩ | ⟨hd, rfl⟩⟩
  · exact step_of_runsFreely h
  · rw [step_of_receives h]; rfl
  all_goals simp [step_of_receives h, handleInput, dispatchLine, hd, runCommand]

/-- What a step that requests the loader's answer is. -/
theorem step_of_loadRequestedFrom {s u : State} (h : LoadRequestedFrom s u) : step s = .next (requestLoader u) := by
  rcases h with ⟨h, hw, rfl⟩ | ⟨w, arg, rest, h, hd, rfl⟩
  · simp [step, blockStep, h, hw]
  · simp [step_of_receives h, handleInput, dispatchLine, hd, runCommand]

/-- What is left of a state by the time the engine runs, the loader is asked or a command acts: all but the session state, the
consumed transaction, the wait and the added events, none of which but the first announces a breakpoint hit. -/
structure Prepared (s u : State) : Prop where
  cfg : u.cfg = s.cfg
  regs : u.regs = s.regs
  mem : u.mem = s.mem
  dataOut : u.dataOut = s.dataOut
  status : u.status = s.status
  breakpoint : u.breakpoint = s.breakpoint
  loaderIn : u.loaderIn = s.loaderIn
  diagOut : ∃ events, u.diagOut = s.diagOut ++ (hitEvents s ++ events) ∧ ∀ a, .breakpointHit a ∉ events
  cmdIn : u.cmdIn = s.cmdIn ∨ ∃ c, Receives s c u.cmdIn
  wait : u.wait ≠ .command
  debugEnabled : u.debugEnabled = true → s.debugEnabled = true
  paused : (s.paused = true → s.debugEnabled = true) → u.paused = true → u.debugEnabled = true

theorem prepared_refl {s : State} (h : ¬ AtBreakpoint s) (hw : s.wait ≠ .command) : Prepared s s :=
  ⟨rfl, rfl, rfl, rfl, rfl, rfl, rfl, ⟨[], by simp [hitEvents_not h], by simp⟩, .inl rfl, hw, id, id⟩

/-- Handling a transaction, or waiting for one, begins with a prepared state. -/
theorem prepared_received {s : State} {rest : List CmdIn} (h : rest = s.cmdIn ∨ ∃ c, Receives s c rest) :
    Prepared s (received s rest) :=
  ⟨rfl, rfl, rfl, rfl, rfl, rfl, rfl, ⟨_, rfl, by intro a; split <;> simp⟩, h, nofun, id, fun hs hp => by
    rcases (Bool.or_eq_true ..).mp hp with h | h
    · exact hs h
    · exact (of_decide_eq_true h).2.1⟩

/-- Leaving the pause, and debug mode with it or not, keeps a state prepared. -/
theorem Prepared.unpause {s u : State} (h : Prepared s u) (d : Bool) (hd : d = true → u.debugEnabled = true) :
    Prepared s { u with debugEnabled := d, paused := false } :=
  ⟨h.cfg, h.regs, h.mem, h.dataOut, h.status, h.breakpoint, h.loaderIn, h.diagOut, h.cmdIn, h.wait,
    fun hd' => h.debugEnabled (hd hd'), nofun⟩

theorem EngineRunsFrom.prepared {s u : State} (h : EngineRunsFrom s u) : Prepared s u := by
  rcases h with ⟨h, rfl⟩ | ⟨rest, h, rfl⟩ | ⟨w, arg, rest, h, ⟨-, rfl⟩ | ⟨-, rfl⟩⟩
  · exact prepared_refl (fun hb => (h.2.2 hb.2.1).2 hb.2.2.2) fun hw => nomatch hw.symm.trans h.2.1
  · exact (prepared_received (.inr ⟨_, h⟩)).unpause false nofun
  · exact prepared_received (.inr ⟨_, h⟩)
  · exact (prepared_received (.inr ⟨_, h⟩)).unpause _ id

theorem LoadRequestedFrom.prepared {s u : State} (h : LoadRequestedFrom s u) : Prepared s u := by
  rcases h with ⟨-, hw, rfl⟩ | ⟨w, arg, rest, h, -, rfl⟩
  · exact prepared_refl (fun hb => nomatch hw.symm.trans hb.1) fun h => nomatch hw.symm.trans h
  · exact prepared_received (.inr ⟨_, h⟩)

/-- The two outcomes of taking a loader's answer. -/
theorem takeAnswer_cases (s : State) (r : LoadResult) :
    (∃ image, r = .ok image ∧ image.length ≤ s.cfg.memWords ∧ s.takeAnswer r = s.load image) ∨
      ∃ k, s.takeAnswer r = s.loadFailed k := by
  unfold State.takeAnswer checkedAnswer
  cases r with
  | ok image =>
    by_cases h : image.length ≤ s.cfg.memWords
    · exact .inl ⟨image, rfl, h, by simp [h]⟩
    · exact .inr ⟨.imageTooLarge image.length, by simp [h]⟩
  | err k => exact .inr ⟨k, rfl⟩

/-- The outcomes of a load request: the block waits, takes an image that fits, or reports a load error and ends the run. -/
theorem requestLoader_cases (s : State) :
    (s.loaderIn = [] ∧ requestLoader s = { s with wait := .loader }) ∨
      ∃ r more, s.loaderIn = r :: more ∧
        ((∃ image, r = .ok image ∧ image.length ≤ s.cfg.memWords ∧ requestLoader s = { s with loaderIn := more }.load image) ∨
          ∃ k, requestLoader s = { s with loaderIn := more }.loadFailed k) := by
  unfold requestLoader
  cases hl : s.loaderIn with
  | nil => exact .inl ⟨rfl, rfl⟩
  | cons r more => exact .inr ⟨r, more, rfl, takeAnswer_cases { s with loaderIn := more } r⟩

/-- A resolved address is one the address decoder accepts (R216). -/
theorem resolveAddress_inRange {w : Token} {s : State} {a : Int} (h : resolveAddress w s = .ok a) : inRange s.cfg a = true := by
  have key : ∀ z, checkAddress s.cfg z = .ok a → inRange s.cfg a = true := by
    intro z hz
    unfold checkAddress at hz
    split at hz
    · injection hz with hz
      rwa [← hz]
    · cases hz
  unfold resolveAddress at h
  split at h
  · cases h
  · split at h
    · exact key _ h
    · split at h
      · split at h
        · exact key _ h
        · cases h
      · cases h

/-- What a command that neither runs the engine nor asks the loader does: it ends the run, reports, or writes the breakpoint. -/
theorem runCommand_cases {c : Command} {arg : Option Token} {s t : State} (h1 : c ≠ .step) (h2 : c ≠ .cont)
    (h3 : c ≠ .restart) (h : runCommand c arg s = .next t) :
    (c = .quit ∧ t = s.exit exitOk) ∨ (∃ e, t = s.emitDiag e ∧ ∀ a, e ≠ .breakpointHit a) ∨
      ∃ b, t = { s with breakpoint := b } ∧ ∀ a ∈ b, a = s.ip ∨ inRange s.cfg a = true := by
  cases c <;> simp only [runCommand] at h <;> (try contradiction) <;> injection h with h <;> subst h
  · exact .inr (.inl ⟨_, rfl, by simp⟩)
  · exact .inl ⟨rfl, rfl⟩
  · exact .inr (.inl ⟨_, rfl, by simp⟩)
  · unfold cmdPrint
    repeat' split
    all_goals exact .inr (.inl ⟨_, rfl, by simp⟩)
  · unfold cmdExamine
    split
    all_goals exact .inr (.inl ⟨_, rfl, by simp⟩)
  · exact .inr (.inl ⟨_, rfl, by simp⟩)
  · unfold cmdBreak
    split
    · exact .inr (.inr ⟨_, rfl, by simp⟩)
    · split
      · rename_i a ha
        refine .inr (.inr ⟨_, rfl, fun b hb => .inr ?_⟩)
        obtain rfl : a = b := by simpa using hb
        exact resolveAddress_inRange ha
      · exact .inr (.inl ⟨_, rfl, by simp⟩)
  · unfold cmdDelete
    split
    · exact .inr (.inl ⟨_, rfl, by simp⟩)
    · exact .inr (.inr ⟨_, rfl, by simp⟩)

/-- Everything one step of the block can do to a state: prepare it, and then run the engine, ask the loader, end the run, report,
write the breakpoint, do nothing, or wait for a command. -/
theorem step_effects {s t : State} (h : step s = .next t) :
    ∃ u, Prepared s u ∧
      (runEngine u = .next t ∨ t = requestLoader u ∨ t = u.exit exitOk ∨
        (∃ e, t = u.emitDiag e ∧ ∀ a, e ≠ .breakpointHit a) ∨
        (∃ b, t = { u with breakpoint := b } ∧ ∀ a ∈ b, a = u.ip ∨ inRange u.cfg a = true) ∨ t = u ∨
        (t = { u with wait := .command } ∧ ((s.wait = .command → s.paused = true) → u.paused = true))) := by
  rcases step_cases h with ⟨u, hu, ht⟩ | ⟨u, hu, ht⟩ | ⟨w, arg, rest, c, hr, -, h1, h2, h3, ht⟩ | ⟨w, arg, rest, hr, -, ht⟩ |
    ⟨hl, hc, ht⟩
  · exact ⟨u, hu.prepared, .inl ht⟩
  · exact ⟨u, hu.prepared, .inr (.inl ht)⟩
  · refine ⟨_, prepared_received (.inr ⟨_, hr⟩), ?_⟩
    rcases runCommand_cases h1 h2 h3 ht with ⟨-, ht⟩ | ht | ht
    · exact .inr (.inr (.inl ht))
    · exact .inr (.inr (.inr (.inl ht)))
    · exact .inr (.inr (.inr (.inr (.inl ht))))
  · exact ⟨_, prepared_received (.inr ⟨_, hr⟩), .inr (.inr (.inr (.inr (.inr (.inl ht)))))⟩
  · refine ⟨_, prepared_received (.inl hc.symm), .inr (.inr (.inr (.inr (.inr (.inr ⟨ht, fun hw => ?_⟩)))))⟩
    refine (Bool.or_eq_true ..).mpr ?_
    rcases hl.2 with h | h | h
    · exact .inl h.2.2
    · exact .inr (decide_eq_true h)
    · exact .inl (hw h)

end Sys2Proof.Machine
end

