-- ==== Sys2Proof/Tests/Slice0.lean ====
section
/-! SUPPORT. The model's own tests. Expected results come from spec/95_test_vectors.md (its vector's name stands in the comment)
or from the rule cited; the witnesses show that the hypotheses of each obligation can be met, each clause at a boundary. -/

namespace Sys2Proof.Tests

open Sys2Proof.Machine

/-! ### States -/

/-- Words at rising addresses. -/
def putWords : Nat → List Int → Memory → Memory
  | _, [], m => m
  | a, v :: vs, m => putWords (a + 1) vs (m.write a v)

/-- A running block outside debug mode with IP at `a`, those words there, those registers, and zeros elsewhere. -/
def start (a : Int) (ws : List Int) (xs : List (Reg × Int)) : State :=
  let s : State := { State.reset with wait := .nothing, mem := putWords (addrOf a) ws [] }
  (xs.foldl (fun (t : State) x => t.setReg x.1 x.2) s).setReg Reg.ip a

/-- The same block in debug mode and paused, with those transactions offered. -/
def pausedAt (a : Int) (ws : List Int) (xs : List (Reg × Int)) (cs : List CmdIn) : State :=
  { start a ws xs with debugEnabled := true, paused := true, cmdIn := cs }

/-- A command line. -/
def say (w : String) (arg : Option String) : CmdIn := .line w.toList (arg.map String.toList)

/-- The state of the command vectors CM1 to CM18, with one line offered. -/
def atPrompt (w : String) (arg : Option String) : State := pausedAt 3 [] [(Reg.sp, 6), (1, 7)] [say w arg]

/-- The next state of an outcome, if it is one. -/
def after (o : Host.Outcome State Fault Refusal) : Option State :=
  match o with
  | .next t => some t
  | .fault _ => none
  | .refused _ => none

/-- What one step leaves of a view of the state. -/
def see {α : Type} (s : State) (f : State → α) : Option α := (after (step s)).map f

/-! ### Encoding -/

/-- Move family: MOVI 7 r1 (M1), MOV r1 r2 (M5). -/
theorem test_decode_move :
    decode [1, 7, 1] = .ok (.movi 7 1, []) ∧
    decode [2, 1, 2] = .ok (.mov 1 2, []) := by decide

/-- Arithmetic family, source before destination (R72; R81: `ADD r1 r2` is `x[2] <- x[2] + x[1]`). -/
theorem test_decode_arith :
    decode [3, 1, 2] = .ok (.add 1 2, []) ∧
    decode [4, 3, 1] = .ok (.sub 3 1, []) ∧
    decode [5, 2, 1] = .ok (.mul 2 1, []) ∧
    decode [6, 4, 1] = .ok (.idiv 4 1, []) := by decide

/-- Control family (J1, J5, J9, J12, J15). -/
theorem test_decode_control :
    decode [7, 1] = .ok (.jmp 1, []) ∧
    decode [8, 1, 2] = .ok (.jnz 1 2, []) ∧
    decode [10] = .ok (.halt, []) ∧
    decode [13, 29] = .ok (.jal 29, []) ∧
    decode [14] = .ok (.ret, []) := by decide

/-- Output and memory families (O4, L1, L6, L9, L17, L20, L22). -/
theorem test_decode_output_memory :
    decode [9, 31] = .ok (.out 31, []) ∧
    decode [11, 1, 2] = .ok (.ld 1 2, []) ∧
    decode [12, 1, 2] = .ok (.st 1 2, []) ∧
    decode [15, 1] = .ok (.push 1, []) ∧
    decode [16, 31] = .ok (.pop 31, []) ∧
    decode [17, -21, 1] = .ok (.ldlo (-21) 1, []) ∧
    decode [18, 479, 1] = .ok (.stlo 479 1, []) := by decide

/-- Rejected by name: S4 and S5 (R78), S9 and S10 (R73), S12 (operand 1 first), a word short, no word. -/
theorem test_decode_refuses :
    decode [19] = .error (.invalidOpcode 19) ∧
    decode [-1] = .error (.invalidOpcode (-1)) ∧
    decode [1, 5, 32] = .error (.badRegister 2 32) ∧
    decode [1, 5, -1] = .error (.badRegister 2 (-1)) ∧
    decode [3, 40, 99] = .error (.badRegister 1 40) ∧
    decode [3, 1] = .error (.missing 2) ∧
    decode [] = .error (.missing 0) := by decide

/-- An opcode word is compared whole: no high bit is ignored (R76). -/
theorem test_decode_whole_word : decode [268435457, 7, 1] = .error (.invalidOpcode 268435457) := by decide

/-- WellFormed accepts a good instruction and refuses an ill-formed one at each check: no words, an illegal tag (R78), a missing
operand, an extra word (R71), a register operand of 32 or -1 (R73). -/
theorem test_wellFormed :
    WellFormed [1, -5, 31] = true ∧
    WellFormed [] = false ∧
    WellFormed [0] = false ∧
    WellFormed [9] = false ∧
    WellFormed [10, 0] = false ∧
    WellFormed [9, 32] = false ∧
    WellFormed [9, -1] = false := by decide

/-- The table's bit numbering: the first word lowest, each word two's complement, later words zero where the row gives no bits. -/
theorem test_decodeTableWord :
    decodeTableWord 32 3 = some (.add 0 0) ∧
    decodeTableWord 96 0x000000020000000100000003 = some (.add 1 2) ∧
    decodeTableWord 96 0x00000001FFFFFFFF00000001 = some (.movi (-1) 1) ∧
    decodeTableWord 32 19 = none := by decide

/-- A placed instruction is the next to run, from reset too. -/
theorem test_withFetchWord :
    see (State.reset.withFetchWord 96 0x000000010000000700000001) (fun t => (t.reg 1, t.ip)) = some (7, 3) := by decide

/-! ### Instructions, one step each -/

/-- M2 and M3. -/
theorem test_movi :
    see (start 0 [1, -5, 31] []) (fun t => (t.reg Reg.sp, t.ip)) = some (-5, 3) ∧
    see (start 0 [1, 100, 0] []) (fun t => t.ip) = some 100 := by decide

/-- M6 and M7. -/
theorem test_mov :
    see (start 10 [2, 0, 1] []) (fun t => (t.reg 1, t.ip)) = some (13, 13) ∧
    see (start 10 [2, 1, 0] [(1, 40)]) (fun t => t.ip) = some 40 := by decide

/-- A2: MAX + 1 wraps to MIN. -/
theorem test_add_wraps :
    see (start 0 [3, 2, 1] [(1, 2147483647), (2, 1)]) (fun t => (t.reg 1, t.reg 2, t.ip)) =
      some ((-2147483648), 1, 3) := by decide

/-- A6: register 0 is read advanced and written as a jump. -/
theorem test_add_ip : see (start 0 [3, 0, 0] []) (fun t => t.ip) = some 6 := by decide

/-- A9: the destination is the minuend. -/
theorem test_sub_order :
    see (start 0 [4, 2, 1] [(1, 3), (2, 5)]) (fun t => (t.reg 1, t.reg 2)) = some (-2, 5) := by decide

/-- A11: 0 - MIN wraps to MIN. -/
theorem test_sub_wraps :
    see (start 0 [4, 2, 1] [(1, 0), (2, (-2147483648))]) (fun t => t.reg 1) = some (-2147483648) := by decide

/-- A15: 46341 squared. -/
theorem test_mul_wraps :
    see (start 0 [5, 1, 1] [(1, 46341)]) (fun t => t.reg 1) = some (-2147479015) := by decide

/-- A19 and A20: toward zero. -/
theorem test_idiv_truncates :
    see (start 0 [6, 2, 1] [(1, -7), (2, 2)]) (fun t => t.reg 1) = some (-3) ∧
    see (start 0 [6, 2, 1] [(1, 7), (2, -2)]) (fun t => t.reg 1) = some (-3) := by decide

/-- A28 and A29: MIN by -1, by the parameter. -/
theorem test_idiv_overflow :
    see (start 0 [6, 2, 1] [(1, (-2147483648)), (2, -1)]) (fun t => t.reg 1) = some (-2147483648) ∧
    see { start 0 [6, 2, 1] [(1, (-2147483648)), (2, -1)] with
        cfg := { Config.standard with idivMinNeg1 := .fault } }
      (fun t => (t.diagOut, t.ip, t.status)) = some ([.faultReport (.divideOverflow 0)], 0, .exited 1) := by decide

/-- J2: a jump through register 0 goes to the advanced IP. -/
theorem test_jmp : see (start 5 [7, 0] []) (fun t => t.ip) = some 7 := by decide

/-- J5 and J6. -/
theorem test_jnz :
    see (start 0 [8, 1, 2] [(2, 40)]) (fun t => t.ip) = some 3 ∧
    see (start 0 [8, 1, 2] [(1, -1), (2, 40)]) (fun t => t.ip) = some 40 := by decide

/-- O2: the advanced IP is read; S6 for OUT: the operand word is at 500. -/
theorem test_out :
    see (start 4 [9, 0] []) (fun t => (t.dataOut, t.ip)) = some ([6], 6) ∧
    see (start 499 [9] []) (fun t => (t.dataOut, t.diagOut)) =
      some ([], [.faultReport (.memOutOfRange 500 .fetch)]) := by decide

/-- S6: HALT in the last word. -/
theorem test_halt : see (start 499 [10] []) (fun t => (t.ip, t.status)) = some (500, .exited 0) := by decide

/-- L5: the address is the advanced IP. L2: 500 is out of range. -/
theorem test_ld :
    see (start 0 [11, 0, 1, 9] []) (fun t => t.reg 1) = some 9 ∧
    see (start 0 [11, 1, 2] [(1, 500)]) (fun t => t.diagOut) =
      some [.faultReport (.memOutOfRange 500 .read)] := by decide

/-- L6 and L26. -/
theorem test_st :
    see (start 0 [12, 1, 2] [(1, 499), (2, 5)]) (fun t => t.mem.read 499) = some 5 ∧
    see (start 0 [12, 1, 2] [(1, 1), (2, 99)]) (fun t => t.mem.read 1) = some 99 := by decide

/-- J9 and J10: the target is read after RP is written. -/
theorem test_jal :
    see (start 6 [13, 5] [(5, 11)]) (fun t => (t.reg Reg.rp, t.ip)) = some (8, 11) ∧
    see (start 6 [13, 29] [(29, 100)]) (fun t => (t.reg Reg.rp, t.ip)) = some (8, 8) := by decide

/-- J12. -/
theorem test_ret : see (start 21 [14] [(Reg.rp, 8)]) (fun t => t.ip) = some 8 := by decide

/-- L10 and L13: the old SP is stored. -/
theorem test_push :
    see (start 0 [15, 1] [(Reg.sp, 499), (1, 4)]) (fun t => (t.mem.read 499, t.reg Reg.sp)) =
      some (4, 500) ∧
    see (start 0 [15, 31] [(Reg.sp, 10)]) (fun t => (t.mem.read 10, t.reg Reg.sp)) = some (10, 11) := by decide

/-- L17: the popped word wins. L15: SP is unchanged at a fault. -/
theorem test_pop :
    see (start 9 [16, 31] [(Reg.sp, 10)]) (fun t => t.reg Reg.sp) = some 16 ∧
    see (start 0 [16, 2] []) (fun t => (t.reg Reg.sp, t.diagOut)) =
      some (0, [.faultReport (.memOutOfRange (-1) .read)]) := by decide

/-- L21 and L24: FP + imm wraps before the check. -/
theorem test_ldlo :
    see (start 0 [17, -20, 1] [(Reg.fp, 20)]) (fun t => t.reg 1) = some 17 ∧
    see (start 0 [17, 1, 1] [(Reg.fp, 2147483647)]) (fun t => t.diagOut) =
      some [.faultReport (.memOutOfRange (-2147483648) .read)] := by decide

/-- L22 and L23. -/
theorem test_stlo :
    see (start 0 [18, 479, 1] [(Reg.fp, 20), (1, 3)]) (fun t => t.mem.read 499) = some 3 ∧
    see (start 0 [18, 480, 1] [(Reg.fp, 20), (1, 3)]) (fun t => t.diagOut) =
      some [.faultReport (.memOutOfRange 500 .write)] := by decide

/-! ### Fetch faults -/

/-- S1, S2, S3. -/
theorem test_fetch_faults :
    see (start 500 [] []) (fun t => (t.diagOut, t.ip)) = some ([.faultReport (.memOutOfRange 500 .fetch)], 500) ∧
    see (start (-1) [] []) (fun t => t.diagOut) = some [.faultReport (.memOutOfRange (-1) .fetch)] ∧
    see (start 0 [] []) (fun t => t.diagOut) = some [.faultReport (.invalidOpcode 0 0)] := by decide

/-- S13 and S15: operand 1 is checked before operand 2 is fetched. -/
theorem test_fetch_order :
    see (start 497 [3, 1, 77] []) (fun t => t.diagOut) = some [.faultReport (.badRegister 77 499)] ∧
    see (start 498 [3, 40] []) (fun t => t.diagOut) = some [.faultReport (.badRegister 40 499)] := by decide

/-- W4: a fault in debug mode pauses the session. -/
theorem test_fault_in_debug_mode :
    see { pausedAt 7 [19] [] [] with paused := false } (fun t => (t.diagOut, t.paused, t.status, t.ip)) =
      some ([.faultReport (.invalidOpcode 19 7)], true, .running, 7) := by decide

/-- The fault codes of R260. -/
theorem test_fault_codes :
    [faultCode (.invalidOpcode 0 0), faultCode (.memOutOfRange 0 .fetch), faultCode (.badRegister 0 0),
      faultCode (.divideByZero 0), faultCode (.divideOverflow 0)] = [1, 2, 3, 4, 5] := by decide

/-! ### The debugger session -/

/-- CD1, CD2, CD3, CD4, CD6, CD7, CD9, CD13. -/
theorem test_decodeCommand :
    decodeCommand "HE".toList = .command .help ∧ decodeCommand "helpme".toList = .noMatch ∧
    decodeCommand [] = .ambiguous ∧ decodeCommand "X".toList = .command .examine ∧
    decodeCommand "xa".toList = .noMatch ∧ decodeCommand "br".toList = .command .breakAt ∧
    decodeCommand "r".toList = .command .restart ∧ decodeCommand "?".toList = .noMatch := by decide

/-- RG1 to RG6. -/
theorem test_resolveRegister :
    resolveRegister "Ip".toList = some 0 ∧ resolveRegister "SP".toList = some 31 ∧
    resolveRegister "R31".toList = some 31 ∧ resolveRegister "r07".toList = some 7 ∧
    resolveRegister "r32".toList = none ∧ resolveRegister "r+1".toList = none ∧ resolveRegister "5".toList = none := by decide

/-- AD1, AD2, AD4, AD5, AD6, AD8, AD9. -/
theorem test_resolveAddress :
    (let s := start 3 [] [(Reg.sp, 6), (1, 700)]
    resolveAddress "sp".toList s = .ok 6 ∧ resolveAddress "31".toList s = .ok 31 ∧
    resolveAddress "r1".toList s = .error (.addressOutOfRange 700) ∧ resolveAddress [] s = .error .addressRequired ∧
    resolveAddress "12ab".toList s = .error (.malformedAddress "12ab".toList) ∧ resolveAddress "007".toList s = .ok 7 ∧
    resolveAddress "500".toList s = .error (.addressOutOfRange 500)) := by decide

/-- CM1, CM2, CM3, CM5, CM8: each after the iteration's one prompt. -/
theorem test_commands_report :
    see (atPrompt "help" none) (fun t => t.diagOut) = some [.prompt 3, .helpText] ∧
    see (atPrompt "quit" none) (fun t => t.status) = some (.exited 0) ∧
    see (atPrompt "list" (some "5")) (fun t => t.diagOut) = some [.prompt 3, .notImplemented .list] ∧
    see (atPrompt "print" (some "r1")) (fun t => t.diagOut) = some [.prompt 3, .printResult 1 7] ∧
    see (atPrompt "print" (some "r99")) (fun t => t.diagOut) =
      some [.prompt 3, .cmdError (.badRegisterName "r99".toList)] := by decide

/-- CM9, CM10, CM12, CM14, CM18. -/
theorem test_commands_address :
    see (atPrompt "x" (some "sp")) (fun t => t.diagOut) = some [.prompt 3, .examineResult 6 0] ∧
    see (atPrompt "x" (some "600")) (fun t => t.diagOut) = some [.prompt 3, .cmdError (.addressOutOfRange 600)] ∧
    see (atPrompt "break" none) (fun t => (t.breakpoint, t.diagOut)) = some (some 3, [.prompt 3]) ∧
    see (atPrompt "delete" none) (fun t => t.diagOut) = some [.prompt 3, .cmdError .noBreakpointSet] ∧
    see (atPrompt "bogus" none) (fun t => (t.diagOut, t.cmdIn)) = some ([.prompt 3], []) := by decide

/-- P5, iteration 3: the breakpoint hit, the prompt and the command are one iteration. -/
theorem test_breakpoint_iteration :
    see { pausedAt 3 [] [(1, 7)] [say "p" (some "r1")] with paused := false, breakpoint := some 3 }
      (fun t => (t.diagOut, t.paused)) =
      some ([.breakpointHit 3, .prompt 3, .printResult 1 7], true) := by decide

/-- P5, iteration 8: `continue` runs the engine in the same iteration, at the breakpoint too (R208). -/
theorem test_continue :
    see { pausedAt 5 [10] [] [say "c" none] with breakpoint := some 5 }
      (fun t => (t.diagOut, t.paused, t.status)) = some ([.prompt 5], false, .exited 0) := by decide

/-- P7, the last iteration: end of input leaves debug mode and the fault ends the run. -/
theorem test_endOfInput :
    see (pausedAt 18 [6, 4, 1] [] [.endOfInput]) (fun t => (t.diagOut, t.debugEnabled, t.status)) =
      some ([.prompt 18, .faultReport (.divideByZero 18)], false, .exited 1) := by decide

/-! ### Reset and load -/

/-- RS1. -/
theorem test_load :
    see (State.reset.offerLoad (.ok [1, 7, 1, 9, 1, 10]))
      (fun t => (t.ip, t.reg Reg.fp, t.reg Reg.sp, t.mem.read 5, t.mem.read 6, t.wait)) =
      some (0, 6, 6, 10, 0, .nothing) := by decide

/-- RS5. -/
theorem test_load_error :
    see (State.reset.offerLoad (.err (.truncated 3))) (fun t => (t.diagOut, t.status)) =
      some ([.loadError (.truncated 3)], .exited 1) := by decide

/-- No answer yet: the block waits (R7). -/
theorem test_load_waits : see State.reset (fun t => t) = some State.reset := by decide

/-! ### Witnesses: states and operands that meet the hypotheses of each obligation -/

/-- `DecodesExactlyTheWellFormedWords`. -/
theorem witness_decodes : decode [18, 5, 31, 9] = .ok (.stlo 5 31, [9]) := by decide

/-- `StepRunsTheDecodedInstruction`, first part, outside and inside debug mode. -/
theorem witness_step_runs :
    (let s := start 0 [10] []
    RunsFreely s ∧ decode s.fetched = .ok (.halt, [0, 0])) ∧
    (let s := { start 498 [9, 31] [] with debugEnabled := true, breakpoint := some 0 }
    RunsFreely s ∧ decode s.fetched = .ok (.out 31, [])) := by decide

/-- `StepRunsTheDecodedInstruction`, second part, at the last three words of memory. -/
theorem witness_words_at_ip :
    (let s := start 497 [1, -1, 31] []
    ∀ (k : Nat) (hk : k < (encode (.movi (-1) 31)).length), inRange s.cfg (s.ip + k) = true ∧
      s.memRead (s.ip + k) = (encode (.movi (-1) 31))[k]) := by decide

/-- `FetchFollowsTheSpecLoop`: each fault, and a fetch that succeeds. -/
theorem witness_specFetch :
    specFetch (start 500 [] []) = .error (.memOutOfRange 500 .fetch) ∧
    specFetch (start 0 [19] []) = .error (.invalidOpcode 19 0) ∧
    specFetch (start 498 [3, 40] []) = .error (.badRegister 40 499) ∧
    specFetch (start 498 [3, 4] []) = .error (.memOutOfRange 500 .fetch) ∧
    specFetch (start 499 [14] []) = .ok [14] := by decide

/-- `OpcodeFetchIsBoundsChecked`: outside at 500 and -1, inside at 0 and 499. -/
theorem witness_opcode_fetch :
    (let s := start 500 [] []; RunsFreely s ∧ ¬ (0 ≤ s.ip ∧ s.ip < s.cfg.memWords)) ∧
    (let s := start (-1) [] []; RunsFreely s ∧ ¬ (0 ≤ s.ip ∧ s.ip < s.cfg.memWords)) ∧
    (let s := start 0 [] []; 0 ≤ s.ip ∧ s.ip < s.cfg.memWords) ∧
    (let s := start 499 [] []; 0 ≤ s.ip ∧ s.ip < s.cfg.memWords) := by decide

/-- `IllegalOpcodeFaults`: tags 0 and 19 at the ends of memory, and a legal instruction's words. -/
theorem witness_illegal_opcode :
    (let s := start 0 [] []
    RunsFreely s ∧ 0 ≤ s.ip ∧ s.ip < s.cfg.memWords ∧ (s.memRead s.ip) < 1) ∧
    (let s := start 499 [19] []
    RunsFreely s ∧ 0 ≤ s.ip ∧ s.ip < s.cfg.memWords ∧ 18 < (s.memRead s.ip)) ∧
    formatOfTag 18 = some .f2ir ∧ [-1, 31].length = Format.f2ir.operands.length ∧
    operandsAccept Format.f2ir.operands [-1, 31] = true ∧
    operandsAccept Format.f2ir.operands [-1, 32] = false := by decide

/-- `SequentialAdvanceNeverWraps`, at the last address of the largest memory R5 allows. -/
theorem witness_sequential_advance :
    (let s := { start (2 ^ 31 - 4) [] [] with cfg := { Config.standard with memWords := 2 ^ 31 - 3 } }
    s.cfg.Valid ∧ inRange s.cfg s.ip = true) := by decide

/-- `FaultsLeaveTheSnapshot` and `FaultIsRaisedAgain`: a run of the engine that faults. -/
theorem witness_engine_fault :
    (let s := start 500 [] []
    runEngine s = .next (takeFault (.memOutOfRange 500 .fetch) s) ∧
      FaultTaken (.memOutOfRange 500 .fetch) s (takeFault (.memOutOfRange 500 .fetch) s)) :=
  ⟨rfl, takeFault_spec _ _⟩

/-- `InstructionsRaiseOnlyTheirFaults`: an arithmetic fault. -/
theorem witness_idiv_raises :
    (let s := start 0 [] []
    exec (.idiv 2 1) s = .next (takeFault (.divideByZero 0) s) ∧
      FaultTaken (.divideByZero 0) s (takeFault (.divideByZero 0) s)) :=
  ⟨rfl, takeFault_spec _ _⟩

/-- `InstructionsRaiseOnlyTheirFaults`: a read and a write fault. -/
theorem witness_memory_raises :
    (let s := start 0 [] [(1, 500)]
    exec (.ld 1 2) s = .next (takeFault (.memOutOfRange 500 .read) s) ∧
      FaultTaken (.memOutOfRange 500 .read) s (takeFault (.memOutOfRange 500 .read) s) ∧
    exec (.st 1 2) s = .next (takeFault (.memOutOfRange 500 .write) s) ∧
      FaultTaken (.memOutOfRange 500 .write) s (takeFault (.memOutOfRange 500 .write) s)) :=
  ⟨rfl, takeFault_spec _ _, rfl, takeFault_spec _ _⟩

/-- `EngineDependsOnSnapshotOnly`: two states that differ in everything but the snapshot and the parameters. -/
theorem witness_same_snapshot :
    (let s := start 0 [9, 31] [(Reg.sp, 5)]
    let u := { pausedAt 0 [9, 31] [(Reg.sp, 5)] [.endOfInput] with dataOut := [1], breakpoint := some 0 }
    s.mem.wf = true ∧ u.mem.wf = true ∧ u.cfg = s.cfg ∧ SameSnapshot s u ∧ (after (runEngine s)).isSome = true) :=
  ⟨by decide, by decide, rfl, ⟨fun _ => rfl, fun _ => rfl⟩, by decide⟩

/-- `IdivWritesTheTruncatedQuotient`: MIN by -1 where it wraps, and MIN by 1 where MIN by -1 faults. -/
theorem witness_idiv_completes :
    (let s := start 0 [] [(1, minWord Config.standard), (2, -1)]
    readDuring s 3 2 ≠ 0 ∧
      ¬ (s.cfg.idivMinNeg1 = .fault ∧ readDuring s 3 1 = minWord s.cfg ∧ readDuring s 3 2 = -1)) ∧
    (let s := { start 0 [] [(1, minWord Config.standard), (2, 1)] with cfg := { Config.standard with idivMinNeg1 := .fault } }
    readDuring s 3 2 ≠ 0 ∧
      ¬ (s.cfg.idivMinNeg1 = .fault ∧ readDuring s 3 1 = minWord s.cfg ∧ readDuring s 3 2 = -1)) := by decide

/-- `IdivFaults`: each clause. -/
theorem witness_idiv_faults :
    readDuring (start 0 [] []) 3 2 = 0 ∧
    (let s := { start 0 [] [(1, minWord Config.standard), (2, -1)] with cfg := { Config.standard with idivMinNeg1 := .fault } }
    s.cfg.idivMinNeg1 = .fault ∧ readDuring s 3 1 = minWord s.cfg ∧ readDuring s 3 2 = -1 ∧
      exec (.idiv 2 1) s = .next (takeFault (.divideOverflow 0) s) ∧
      FaultTaken (.divideOverflow 0) s (takeFault (.divideOverflow 0) s)) :=
  ⟨by decide, by decide, by decide, by decide, rfl, takeFault_spec _ _⟩

/-- `DivisionTruncatesTowardZero`: the least word by 1 and the greatest by -1; `AluKeepsTheLowBits`: a valid configuration. -/
theorem witness_division :
    (let c := Config.standard
    c.Valid ∧ c.IsWord (minWord c) ∧ c.IsWord 1 ∧ (1 : Int) ≠ 0 ∧ ¬ (minWord c = minWord c ∧ (1 : Int) = -1) ∧
      c.IsWord 2147483647 ∧ c.IsWord (-1) ∧ (-1 : Int) ≠ 0 ∧ ¬ (2147483647 = minWord c ∧ (-1 : Int) = -1)) := by decide

/-- A narrower machine: with 8 bits 127 + 1 wraps to -128, and -128 by -1 to -128 (R13, R120, R123). -/
theorem test_narrow_word :
    (let c := { Config.standard with wordBits := 8, memWords := 125 }
    c.Valid ∧ aluAdd c 127 1 = -128 ∧ aluMul c 16 16 = 0 ∧ aluDiv c (-128) (-1) = -128 ∧ ¬ c.IsWord 128) := by decide

/-- `JnzJumpsOnNonZero`: taken and not taken. -/
theorem witness_jnz :
    (readDuring (start 0 [] [(1, minWord Config.standard)]) 3 1) ≠ 0 ∧ (readDuring (start 0 [] []) 3 1) = 0 := by decide

/-- `JmpGoesToTheRegisterValue`, `JnzJumpsOnNonZero`, `JalLinksAndJumps`, `RetGoesToTheReturnPointer`: targets outside memory
(J3, J4, J14). -/
theorem witness_targets :
    (let s := start 0 [] [(1, 500), (2, -1), (Reg.rp, 600)]
    (after (exec (.jmp 1) s)).map (fun t => t.ip) = some 500 ∧
      (after (exec (.jnz 1 2) s)).map (fun t => t.ip) = some (-1) ∧
      (after (exec (.jal 2) s)).map (fun t => t.ip) = some (-1) ∧
      (after (exec .ret s)).map (fun t => t.ip) = some 600 ∧
      ¬ (0 ≤ (500 : Int) ∧ (500 : Int) < s.cfg.memWords) ∧
      ¬ (0 ≤ (-1 : Int) ∧ (-1 : Int) < s.cfg.memWords)) := by decide

/-- `OnlyOutWritesProgramOutput`, `HistoriesOnlyGrow`: a step that answers, with OUT at IP. -/
theorem witness_step_out :
    (let s := start 0 [9, 0] []
    (after (step s)).isSome = true ∧ decode s.fetched = .ok (.out 0, [0])) := by decide

/-- `LdLoadsOrFaults`: addresses 0, 499, 500 and -1. -/
theorem witness_ld :
    (let a := readDuring (start 0 [] []) 3 1; 0 ≤ a ∧ a < 500) ∧
    (let a := readDuring (start 0 [] [(1, 499)]) 3 1; 0 ≤ a ∧ a < 500) ∧
    (let a := readDuring (start 0 [] [(1, 500)]) 3 1; ¬ (0 ≤ a ∧ a < 500)) ∧
    (let a := readDuring (start 0 [] [(1, -1)]) 3 1; ¬ (0 ≤ a ∧ a < 500)) := by decide

/-- `StStoresOrFaults`: canonical memory, and addresses 0, 499, 500 and -1. -/
theorem witness_st :
    (let s := start 5 [12] [(1, 499), (2, 500), (3, -1)]
    s.mem.wf = true ∧ s.cfg.memWords = 500 ∧
      (0 ≤ readDuring s 3 4 ∧ readDuring s 3 4 < s.cfg.memWords) ∧
      (0 ≤ readDuring s 3 1 ∧ readDuring s 3 1 < s.cfg.memWords) ∧
      ¬ (0 ≤ readDuring s 3 2 ∧ readDuring s 3 2 < s.cfg.memWords) ∧
      ¬ (0 ≤ readDuring s 3 3 ∧ readDuring s 3 3 < s.cfg.memWords)) := by decide

/-- `PushStoresOrFaults`: SP at 499 in a valid configuration, at 500 and at -1; `PushThenPopRestoresTheStack`: SP at 0 and
499, a destination that is not SP. -/
theorem witness_push :
    (let s := start 0 [15, 1] [(Reg.sp, 499)]
    s.mem.wf = true ∧ s.cfg.Valid ∧ 0 ≤ s.reg Reg.sp ∧ s.reg Reg.sp < s.cfg.memWords) ∧
    (let s := start 0 [15, 1] []
    s.cfg.Valid ∧ s.mem.wf = true ∧ 0 ≤ s.reg Reg.sp ∧ s.reg Reg.sp < s.cfg.memWords ∧ (0 : Reg) ≠ Reg.sp) ∧
    (let s := start 0 [15, 1] [(Reg.sp, 500)]
    s.mem.wf = true ∧ ¬ (0 ≤ s.reg Reg.sp ∧ s.reg Reg.sp < s.cfg.memWords)) ∧
    (let s := start 0 [15, 1] [(Reg.sp, -1)]
    s.mem.wf = true ∧ ¬ (0 ≤ s.reg Reg.sp ∧ s.reg Reg.sp < s.cfg.memWords)) := by decide

/-- `PopLoadsOrFaults`: SP at 1, 500, 0 and 501, and into SP or not. -/
theorem witness_pop :
    (let a := wrap Config.standard ((start 0 [] [(Reg.sp, 1)]).reg Reg.sp - 1); 0 ≤ a ∧ a < 500) ∧
    (let a := wrap Config.standard ((start 0 [] [(Reg.sp, 500)]).reg Reg.sp - 1); 0 ≤ a ∧ a < 500) ∧
    (let a := wrap Config.standard ((start 0 [] []).reg Reg.sp - 1); ¬ (0 ≤ a ∧ a < 500)) ∧
    (let a := wrap Config.standard ((start 0 [] [(Reg.sp, 501)]).reg Reg.sp - 1); ¬ (0 ≤ a ∧ a < 500)) ∧
    (2 : Reg) ≠ Reg.sp := by decide

/-- `LdloLoadsOrFaults`, `StloStoresOrFaults`: FP + imm at 0, 499, 500 and, wrapped, at the least word. -/
theorem witness_frame_addresses :
    (let s := start 3 [17] [(Reg.fp, 20)]
    s.mem.wf = true ∧ s.cfg.memWords = 500 ∧
      wrap Config.standard (s.reg Reg.fp + -20) = 0 ∧ wrap Config.standard (s.reg Reg.fp + 479) = 499 ∧
      wrap Config.standard (s.reg Reg.fp + 480) = 500 ∧
      wrap Config.standard (s.reg Reg.fp + 2147483628) = minWord Config.standard ∧
      (0 ≤ 499 ∧ 499 < s.cfg.memWords) ∧ ¬ (500 < s.cfg.memWords) ∧
      ¬ (0 ≤ minWord Config.standard)) := by decide

/-- `FrameOfEveryInstruction`: canonical memory, a step that stores, and bytes outside the stored word. -/
theorem witness_frame :
    (let s := start 0 [12, 1, 2] [(1, 499), (2, 5)]
    s.mem.wf = true ∧ (after (exec (.st 1 2) s)).isSome = true ∧ (3 : Reg) ≠ Reg.ip ∧ 3 ∉ destinations (.st 1 2) ∧
      storeAddress s (.st 1 2) = some 499 ∧ 498 ≠ addrOf 499) := by decide

/-- `BreakpointPausesBeforeTheStep`, `BreakpointHitOnlyAtTheBreakpoint`: at the breakpoint, and the step after it, which does not
announce the hit again (R208). -/
theorem witness_breakpoint :
    (let s := { pausedAt 3 [] [] [] with paused := false, breakpoint := some 3 }
    s.status = .running ∧ s.wait = .nothing ∧ s.debugEnabled = true ∧ s.paused = false ∧ s.breakpoint = some s.ip ∧
      AtBreakpoint s ∧ see s (fun t => t.diagOut) = some [.breakpointHit 3, .prompt 3]) ∧
    (let s := { pausedAt 3 [14] [] [say "c" none] with breakpoint := some 3, diagOut := [.breakpointHit 3] }
    ¬ AtBreakpoint s ∧ see s (fun t => t.diagOut) = some [.breakpointHit 3, .prompt 3]) := by decide

/-- `PausedSessionPromptsAndWaits`: before and during the wait. -/
theorem witness_paused :
    (let s := pausedAt 3 [] [] []
    s.status = .running ∧ s.wait = .nothing ∧ s.debugEnabled = true ∧ s.paused = true ∧ s.cmdIn = []) ∧
    (let s := { pausedAt 3 [] [] [] with wait := .command }
    s.status = .running ∧ s.wait = .command ∧ s.cmdIn = []) := by decide

/-- `CommandsAreConsumedOneAtATime`, `StepKeepsInvariant`: a state with the invariant whose step consumes a transaction. -/
theorem witness_invariant :
    (let s := pausedAt 3 [10] [] [say "help" none, .endOfInput]
    s.Inv ∧ see s (fun t => t.cmdIn) = some [.endOfInput]) := by decide

/-- `EndOfInputLeavesDebugModeForGood`: the three ways to receive it, and a step outside debug mode. -/
theorem witness_endOfInput :
    Receives (pausedAt 3 [10] [] [.endOfInput]) .endOfInput [] ∧
    Receives { pausedAt 3 [10] [] [.endOfInput] with wait := .command } .endOfInput [] ∧
    Receives { pausedAt 3 [10] [] [.endOfInput] with paused := false, breakpoint := some 3 } .endOfInput [] ∧
    (let s := start 0 [10] []
    s.status = .running ∧ s.wait = .nothing ∧ s.debugEnabled = false ∧ (after (step s)).isSome = true) := by decide

/-- `UnmatchedInputDoesNothing`: no match, and the empty word. -/
theorem witness_unmatched :
    Receives (atPrompt "z" none) (.line ['z'] none) [] ∧ decodeCommand ['z'] = .noMatch ∧
    Receives (atPrompt "" none) (.line [] none) [] ∧ decodeCommand [] = .ambiguous ∧
    (atPrompt "" none).debugEnabled = true ∧ (received (atPrompt "" none) []).paused = true := by decide

/-- `HelpListFrameQuit`. -/
theorem witness_help_list_frame_quit :
    Receives (atPrompt "h" none) (.line ['h'] none) [] ∧ decodeCommand ['h'] = .command .help ∧
    Receives (atPrompt "l" none) (.line ['l'] none) [] ∧ decodeCommand ['l'] = .command .list ∧
    Receives (atPrompt "f" none) (.line ['f'] none) [] ∧ decodeCommand ['f'] = .command .frame ∧
    Receives (atPrompt "q" none) (.line ['q'] none) [] ∧ decodeCommand ['q'] = .command .quit := by decide

/-- `PrintAndExamineReport`: with no argument, one that resolves and one that does not. -/
theorem witness_print_examine :
    Receives (atPrompt "p" none) (.line ['p'] none) [] ∧ decodeCommand ['p'] = .command .print ∧
    Receives (atPrompt "p" (some "r31")) (.line ['p'] (some "r31".toList)) [] ∧ resolveRegister "r31".toList = some 31 ∧
    Receives (atPrompt "p" (some "r32")) (.line ['p'] (some "r32".toList)) [] ∧ resolveRegister "r32".toList = none := by decide

/-- The same for `examine`. -/
theorem witness_examine :
    Receives (atPrompt "x" none) (.line ['x'] none) [] ∧ decodeCommand ['x'] = .command .examine ∧
    Receives (atPrompt "x" (some "499")) (.line ['x'] (some "499".toList)) [] ∧
    resolveAddress "499".toList (atPrompt "x" (some "499")) = .ok 499 ∧
    Receives (atPrompt "x" (some "500")) (.line ['x'] (some "500".toList)) [] ∧
    resolveAddress "500".toList (atPrompt "x" (some "500")) = .error (.addressOutOfRange 500) := by decide

/-- `BreakAndDeleteSetTheBreakpoint`. -/
theorem witness_break_delete :
    Receives (atPrompt "b" none) (.line ['b'] none) [] ∧ decodeCommand ['b'] = .command .breakAt ∧
    Receives (atPrompt "b" (some "499")) (.line ['b'] (some "499".toList)) [] ∧
    resolveAddress "499".toList (atPrompt "b" (some "499")) = .ok 499 ∧
    resolveAddress "500".toList (atPrompt "b" (some "500")) = .error (.addressOutOfRange 500) ∧
    Receives (atPrompt "d" none) (.line ['d'] none) [] ∧ decodeCommand ['d'] = .command .delete ∧
    (atPrompt "d" none).breakpoint = none ∧
    Receives { atPrompt "d" none with breakpoint := some 3 } (.line ['d'] none) [] := by decide

/-- `StepAndContinueRunTheEngine`: `continue` from an instruction that does not fault. -/
theorem witness_step_continue :
    Receives (atPrompt "s" none) (.line ['s'] none) [] ∧ decodeCommand ['s'] = .command .step ∧
    (received (atPrompt "s" none) []).paused = true ∧ (after (step (atPrompt "s" none))).isSome = true ∧
    decodeCommand ['c'] = .command .cont ∧
    (let s := pausedAt 3 [14] [] [say "c" none]
    Receives s (.line ['c'] none) [] ∧ see s (fun t => t.diagOut) = some (received s []).diagOut) := by decide

/-- `DebuggerNeverWritesTheSnapshot`: a command that reports an error. -/
theorem witness_debugger :
    (let s := pausedAt 3 [] [] []
    runCommand .delete none s = .next (s.emitDiag (.cmdError .noBreakpointSet)) ∧
      runCommand .breakAt none s = .next { s with breakpoint := some 3 } ∧
      runCommand .help none s = .next (s.emitDiag .helpText)) ∧
    Command.delete ≠ .step ∧ Command.delete ≠ .cont ∧ Command.delete ≠ .restart :=
  ⟨⟨rfl, rfl, rfl⟩, by decide, by decide, by decide⟩

/-- `RegisterResolverAcceptsExactlyTheNames`, `CommandDecoderAcceptsPrefixes`: each alternative of their right-hand sides. -/
theorem witness_names :
    lowercase ['I', 'P'] = ['i', 'p'] ∧ lowercase ['R', '3', '1'] = ['r', '3', '1'] ∧ decimalValue ['3', '1'] = 31 ∧
    isDecimalDigit '0' = true ∧ isDecimalDigit '9' = true ∧ isDecimalDigit '/' = false ∧ isDecimalDigit ':' = false ∧
    lowercase ['X'] = ['x'] ∧ lowercase ['E'] <+: commandWord .examine := by decide

/-- `AddressResolverIsBoundsChecked`: each clause. -/
theorem witness_address :
    resolveAddress "499".toList State.reset = .ok 499 ∧ resolveRegister "sp".toList = some Reg.sp ∧
    (∀ c ∈ ['5', '0', '0'], isDecimalDigit c = true) ∧
    resolveRegister ['4', 'x'] = none ∧ (∃ c ∈ ['4', 'x'], isDecimalDigit c = false) :=
  ⟨by decide, by decide, fun c hc => List.all_eq_true.mp (by decide) c hc, by decide, 'x', by decide, by decide⟩

/-- `ResetLoadsTheImage`: an image that just fits; `LoadFailureEndsTheRun`: after reset, one word more, and an error. -/
theorem witness_load :
    (let c := { Config.standard with memWords := 2 }
    [1, 2].length ≤ c.memWords ∧
      (let s := (State.resetWith c false).offerLoad (.ok [1, 2, 3])
      LoadRequestedFrom s s ∧ s.loaderIn = [.ok [1, 2, 3]] ∧ s.cfg.memWords < [1, 2, 3].length) ∧
      (let s := (State.resetWith c true).offerLoad (.err .missingFile)
      LoadRequestedFrom s s ∧ s.loaderIn = [.err .missingFile])) :=
  ⟨by decide, ⟨.inl ⟨rfl, rfl, rfl⟩, rfl, by decide⟩, .inl ⟨rfl, rfl, rfl⟩, rfl⟩

/-- RS6: `restart` with a failing answer at hand reports it and ends the run. -/
theorem test_restart_fails :
    see { atPrompt "r" none with loaderIn := [.err (.badToken 2)] } (fun t => (t.diagOut, t.status)) =
      some ([.prompt 3, .loadError (.badToken 2)], .exited 1) := by decide

/-- `RestartReloadsTheSnapshot`, `LoadFailureEndsTheRun`: a `restart` with the answer at hand. -/
theorem witness_restart :
    (let s := { atPrompt "r" none with loaderIn := [.ok [10]] }
    LoadRequestedFrom s (received s []) ∧ (received s []).loaderIn = .ok [10] :: [] ∧
      [10].length ≤ (received s []).cfg.memWords) ∧
    (let s := { atPrompt "r" none with loaderIn := [.err .missingFile] }
    LoadRequestedFrom s (received s []) ∧ (received s []).loaderIn = .err .missingFile :: []) :=
  ⟨⟨.inr ⟨['r'], none, [], by decide, by decide, rfl⟩, rfl, by decide⟩,
    .inr ⟨['r'], none, [], by decide, by decide, rfl⟩, rfl⟩

/-- The same without an answer: the block waits with the session kept, and takes the answer in the step after it is given. -/
theorem witness_restart_waits :
    (let s := atPrompt "r" none
    LoadRequestedFrom s (received s []) ∧ (received s []).loaderIn = [] ∧
      (let w := { received s [] with wait := .loader }
      step s = .next w ∧ LoadRequestedFrom (w.offerLoad (.ok [10])) (w.offerLoad (.ok [10])) ∧
        see (w.offerLoad (.ok [10])) (fun t => (t.paused, t.diagOut, t.reg Reg.sp)) = some (true, [.prompt 3], 1))) :=
  ⟨.inr ⟨['r'], none, [], by decide, by decide, rfl⟩, rfl, rfl, .inl ⟨rfl, rfl, rfl⟩, by decide⟩

/-- `CanonicalMemoriesAreEqual`: two canonical memories written in different orders. -/
theorem witness_canonical :
    (let m := (Memory.write [] 3 7).write 499 1
    let n := (Memory.write [] 499 1).write 3 7
    m.wf = true ∧ n.wf = true ∧ ∀ a, m.read a = n.read a) := ⟨by decide, by decide, fun _ => rfl⟩

/-- `RunEndsOnlyInTheListedWays`: each way. -/
theorem witness_run_ends :
    see (start 0 [10] []) (fun t => t.status) = some (.exited 0) ∧
    EngineRunsFrom (start 0 [10] []) (start 0 [10] []) ∧
    see (atPrompt "q" none) (fun t => t.status) = some (.exited 0) ∧
    Receives (atPrompt "q" none) (.line ['q'] none) [] ∧
    see (start 0 [] []) (fun t => t.status) = some (.exited 1) ∧
    see (State.reset.offerLoad (.err .negativeCount)) (fun t => t.status) = some (.exited 1) :=
  ⟨by decide, .inl ⟨by decide, rfl⟩, by decide, by decide, by decide, by decide⟩

/-- `StepAnswersUntilExit`: a running state and an exited one. -/
theorem witness_exited :
    State.reset.status = .running ∧ (State.reset.exit 1).status = .exited 1 := by decide

/-- `ResetMeetsInvariant`, `AluKeepsTheLowBits`: valid configurations at the bounds of R5. -/
theorem witness_config :
    Config.standard.Valid ∧ ({ wordBits := 3, memWords := 1, exitFailure := -1, idivMinNeg1 := .fault } : Config).Valid ∧
    ({ wordBits := 32, memWords := 2 ^ 31 - 3, exitFailure := 1, idivMinNeg1 := .wrap } : Config).Valid := by decide

end Sys2Proof.Tests
end

section
/-! PROOF. The output histories (R34): each thing a step of the block is made of only appends to them. -/

namespace Sys2Proof.Machine

/-- Both output histories of `t` begin with those of `s` (R34). -/
def HistoriesExtend (s t : State) : Prop := s.dataOut <+: t.dataOut ∧ s.diagOut <+: t.diagOut

theorem historiesExtend_of_eq {s t : State} (hdata : t.dataOut = s.dataOut) (hdiag : t.diagOut = s.diagOut) :
    HistoriesExtend s t :=
  ⟨hdata ▸ List.prefix_rfl, hdiag ▸ List.prefix_rfl⟩

theorem historiesExtend_of_diag {s t : State} {events : List DiagEvent} (hdata : t.dataOut = s.dataOut)
    (hdiag : t.diagOut = s.diagOut ++ events) : HistoriesExtend s t :=
  ⟨hdata ▸ List.prefix_rfl, hdiag ▸ List.prefix_append _ _⟩

theorem HistoriesExtend.trans {s t u : State} (h : HistoriesExtend s t) (h' : HistoriesExtend t u) : HistoriesExtend s u :=
  ⟨h.1.trans h'.1, h.2.trans h'.2⟩

theorem Prepared.historiesExtend {s u : State} (h : Prepared s u) : HistoriesExtend s u := by
  obtain ⟨events, hdiag, -⟩ := h.diagOut
  exact historiesExtend_of_diag h.dataOut hdiag

theorem EngineWrote.historiesExtend {s t : State} (h : EngineWrote s t) : HistoriesExtend s t := by
  obtain ⟨⟨-, -, hdiag⟩, -, hdata, -⟩ := h
  exact ⟨hdata, hdiag ▸ List.prefix_rfl⟩

theorem FaultTaken.historiesExtend {f : ExecFault} {s t : State} (h : FaultTaken f s t) : HistoriesExtend s t := by
  obtain ⟨-, -, hdata, hdiag, -⟩ := h
  exact historiesExtend_of_diag hdata hdiag

theorem runEngine_historiesExtend {s t : State} (h : runEngine s = .next t) : HistoriesExtend s t := by
  rcases runEngine_next h with hw | ⟨w, hw, rfl⟩ | ⟨f, rfl⟩
  · exact hw.historiesExtend
  · exact hw.historiesExtend.trans (historiesExtend_of_eq (exit_dataOut w _) (exit_diagOut w _))
  · exact (takeFault_spec f s).historiesExtend

theorem requestLoader_historiesExtend (s : State) : HistoriesExtend s (requestLoader s) := by
  rcases requestLoader_cases s with ⟨-, h⟩ | ⟨r, more, -, ⟨image, -, -, h⟩ | ⟨k, h⟩⟩ <;> rw [h]
  · exact historiesExtend_of_eq rfl rfl
  · exact historiesExtend_of_eq rfl rfl
  · exact historiesExtend_of_diag rfl (loadFailed_diagOut _ k)

theorem step_historiesExtend {s t : State} (h : step s = .next t) : HistoriesExtend s t := by
  obtain ⟨u, hu, ht⟩ := step_effects h
  refine hu.historiesExtend.trans ?_
  rcases ht with ht | rfl | rfl | ⟨e, rfl, -⟩ | ⟨b, rfl, -⟩ | rfl | ⟨rfl, -⟩
  · exact runEngine_historiesExtend ht
  · exact requestLoader_historiesExtend u
  · exact historiesExtend_of_eq rfl rfl
  · exact historiesExtend_of_diag rfl (emitDiag_diagOut u e)
  · exact historiesExtend_of_eq rfl rfl
  · exact historiesExtend_of_eq rfl rfl
  · exact historiesExtend_of_eq rfl rfl

/-- Settles O58: every part of a step only appends to the histories, and a step answers only while the block runs. -/
theorem historiesOnlyGrow : Obligations.HistoriesOnlyGrow := by
  intro s t h
  obtain ⟨hdata, hdiag⟩ := step_historiesExtend h
  exact ⟨hdata, hdiag, running_of_step h⟩

end Sys2Proof.Machine
end

section
/-! PROOF. Illegal words (R78): what the decoder makes of an opcode word outside 1 to 18, and of the operand words that follow
a legal one. -/

namespace Sys2Proof

/-- The illegal opcode words of R78. -/
theorem formatOfTag_eq_none_iff (tag : Int) : formatOfTag tag = none ↔ (tag < 1 ∨ 18 < tag) := by
  constructor
  · intro h
    by_contra hlegal
    obtain ⟨hlow, hhigh⟩ : 1 ≤ tag ∧ tag ≤ 18 := by omega
    interval_cases tag <;> simp [formatOfTag] at h
  · intro h
    unfold formatOfTag
    split <;> try omega
    rfl

theorem decode_invalidOpcode {tag : Int} (h : tag < 1 ∨ 18 < tag) (ws : List Int) :
    decode (tag :: ws) = .error (.invalidOpcode tag) := by
  rw [decode]
  split <;> try omega
  rfl

theorem Reg.exists_word {w : Int} (h : 0 ≤ w ∧ w < 32) : ∃ r : Reg, w = r.word :=
  ⟨⟨w.toNat, by omega⟩, (Int.toNat_of_nonneg h.1).symm⟩

@[simp] theorem OperandKind.imm_accepts (w : Int) : OperandKind.imm.accepts w = true := rfl

@[simp] theorem OperandKind.reg_accepts_word (r : Reg) : OperandKind.reg.accepts r.word = true :=
  Laws.Encoding.accepts_word r

theorem OperandKind.reg_accepts_eq_false {w : Int} (h : ¬ (0 ≤ w ∧ w < 32)) : OperandKind.reg.accepts w = false :=
  decide_eq_false h

theorem readReg_badRegister {w : Int} (h : ¬ (0 ≤ w ∧ w < 32)) (k : Nat) (rest : List Int) :
    readReg k (w :: rest) = .error (.badRegister k w) :=
  dif_neg h

/-- `dec` reads operands of those kinds after the opcode word `tag`: acceptable words make an instruction with that tag, and of
others it reports a register operand outside 0 to 31 with its offset. -/
def DecodesOperands (tag : Int) (kinds : List OperandKind) (dec : List Int → Except DecodeError (Instr × List Int)) : Prop :=
  ∀ ws rest : List Int, ws.length = kinds.length →
    (operandsAccept kinds ws = true ∧ ∃ i, dec (ws ++ rest) = .ok (i, rest) ∧ i.tag = tag) ∨
    (operandsAccept kinds ws = false ∧ ∃ k w, (tag :: ws)[k]? = some w ∧ ¬ (0 ≤ w ∧ w < 32) ∧
      dec (ws ++ rest) = .error (.badRegister k w))

theorem decodesOperands_f0 {tag : Int} {i : Instr} (htag : i.tag = tag) :
    DecodesOperands tag Format.f0.operands fun ws => .ok (i, ws) := by
  intro ws rest hlen
  obtain rfl := List.length_eq_zero_iff.mp hlen
  exact .inl ⟨rfl, i, rfl, htag⟩

theorem decodesOperands_f1r {tag : Int} {mk : Reg → Instr} (htag : ∀ r, (mk r).tag = tag) :
    DecodesOperands tag Format.f1r.operands (decodeF1R mk) := by
  intro ws rest hlen
  obtain ⟨w, rfl⟩ := List.length_eq_one_iff.mp hlen
  by_cases hw : 0 ≤ w ∧ w < 32
  · obtain ⟨r, rfl⟩ := Reg.exists_word hw
    exact .inl ⟨by simp [Format.operands, operandsAccept], mk r, by simp [decodeF1R], htag r⟩
  · exact .inr ⟨by simp [Format.operands, operandsAccept, OperandKind.reg_accepts_eq_false hw], 1, w, rfl, hw,
      by simp [decodeF1R, readReg_badRegister hw]⟩

theorem decodesOperands_f2rr {tag : Int} {mk : Reg → Reg → Instr} (htag : ∀ r q, (mk r q).tag = tag) :
    DecodesOperands tag Format.f2rr.operands (decodeF2RR mk) := by
  intro ws rest hlen
  obtain ⟨v, w, rfl⟩ := List.length_eq_two.mp hlen
  by_cases hv : 0 ≤ v ∧ v < 32
  · obtain ⟨r, rfl⟩ := Reg.exists_word hv
    by_cases hw : 0 ≤ w ∧ w < 32
    · obtain ⟨q, rfl⟩ := Reg.exists_word hw
      exact .inl ⟨by simp [Format.operands, operandsAccept], mk r q, by simp [decodeF2RR], htag r q⟩
    · exact .inr ⟨by simp [Format.operands, operandsAccept, OperandKind.reg_accepts_eq_false hw], 2, w, rfl, hw,
        by simp [decodeF2RR, readReg_badRegister hw]⟩
  · exact .inr ⟨by simp [Format.operands, operandsAccept, OperandKind.reg_accepts_eq_false hv], 1, v, rfl, hv,
      by simp [decodeF2RR, readReg_badRegister hv]⟩

theorem decodesOperands_f2ir {tag : Int} {mk : Int → Reg → Instr} (htag : ∀ imm r, (mk imm r).tag = tag) :
    DecodesOperands tag Format.f2ir.operands (decodeF2IR mk) := by
  intro ws rest hlen
  obtain ⟨imm, w, rfl⟩ := List.length_eq_two.mp hlen
  by_cases hw : 0 ≤ w ∧ w < 32
  · obtain ⟨r, rfl⟩ := Reg.exists_word hw
    exact .inl ⟨by simp [Format.operands, operandsAccept], mk imm r, by simp [decodeF2IR],
      htag imm r⟩
  · exact .inr ⟨by simp [Format.operands, operandsAccept, OperandKind.reg_accepts_eq_false hw], 2, w, rfl, hw,
      by simp [decodeF2IR, readReg_badRegister hw]⟩

/-- The rows of R76: each legal opcode word is followed by the operands of its format. -/
theorem decode_decodesOperands {tag : Int} {f : Format} (h : formatOfTag tag = some f) :
    DecodesOperands tag f.operands fun ws => decode (tag :: ws) := by
  have hlegal : ¬ (tag < 1 ∨ 18 < tag) := by simp [← formatOfTag_eq_none_iff, h]
  obtain ⟨hlow, hhigh⟩ : 1 ≤ tag ∧ tag ≤ 18 := by omega
  interval_cases tag <;> obtain rfl := Option.some.inj h
  · exact decodesOperands_f2ir (mk := .movi) fun _ _ => rfl
  · exact decodesOperands_f2rr (mk := .mov) fun _ _ => rfl
  · exact decodesOperands_f2rr (mk := .add) fun _ _ => rfl
  · exact decodesOperands_f2rr (mk := .sub) fun _ _ => rfl
  · exact decodesOperands_f2rr (mk := .mul) fun _ _ => rfl
  · exact decodesOperands_f2rr (mk := .idiv) fun _ _ => rfl
  · exact decodesOperands_f1r (mk := .jmp) fun _ => rfl
  · exact decodesOperands_f2rr (mk := .jnz) fun _ _ => rfl
  · exact decodesOperands_f1r (mk := .out) fun _ => rfl
  · exact decodesOperands_f0 (i := .halt) rfl
  · exact decodesOperands_f2rr (mk := .ld) fun _ _ => rfl
  · exact decodesOperands_f2rr (mk := .st) fun _ _ => rfl
  · exact decodesOperands_f1r (mk := .jal) fun _ => rfl
  · exact decodesOperands_f0 (i := .ret) rfl
  · exact decodesOperands_f1r (mk := .push) fun _ => rfl
  · exact decodesOperands_f1r (mk := .pop) fun _ => rfl
  · exact decodesOperands_f2ir (mk := .ldlo) fun _ _ => rfl
  · exact decodesOperands_f2ir (mk := .stlo) fun _ _ => rfl

end Sys2Proof

namespace Sys2Proof.Machine

theorem fetched_cons {s : State} (h : inRange s.cfg s.ip = true) :
    s.fetched = s.memRead s.ip :: fetchWindow s.cfg s.mem (s.ip + 1) 2 :=
  if_pos h

theorem runEngine_of_decode_error {s : State} {e : DecodeError} (h : decode s.fetched = .error e) :
    runEngine s = .next (takeFault (fetchFault s.ip e) s) := by
  simp [runEngine, h, commit, settle]

/-- Settles O7: a word outside 1 to 18 is the one the decoder refuses by name, and after a legal one each format's operand words
are read or a register operand is refused. -/
theorem illegalOpcodeFaults : Obligations.IllegalOpcodeFaults := by
  refine ⟨?_, formatOfTag_eq_none_iff, ?_⟩
  · intro s hfree hlow hhigh htag
    have hdec : decode s.fetched = .error (.invalidOpcode (s.memRead s.ip)) := by
      rw [fetched_cons (inRange_iff.mpr ⟨hlow, hhigh⟩), decode_invalidOpcode htag]
    exact ⟨_, (step_of_runsFreely hfree).trans (runEngine_of_decode_error hdec), takeFault_spec _ s⟩
  · intro tag f ws rest hf hlen
    rcases decode_decodesOperands hf ws rest hlen with ⟨hacc, hok⟩ | ⟨hacc, hbad⟩
    · exact ⟨fun _ => hok, by simp [hacc]⟩
    · exact ⟨by simp [hacc], fun _ => hbad⟩

end Sys2Proof.Machine
end

section
/-! PROOF. Faults of a run of the engine: what it leaves alone when it faults (R96), and the bounds check of the opcode fetch
(R91). -/

namespace Sys2Proof.Machine

/-- The engine's working copy has reported nothing (R27, R28). -/
theorem EngineWrote.diagOut {s t : State} (h : EngineWrote s t) : t.diagOut = s.diagOut := by
  obtain ⟨⟨-, -, hdiag⟩, -⟩ := h
  exact hdiag

/-- Settles O9: an outcome of the engine is a working copy, which reports nothing, ended by HALT or not, or a fault taken in the
state before the step. -/
theorem faultsLeaveTheSnapshot : Obligations.FaultsLeaveTheSnapshot := by
  intro s t h
  rcases runEngine_next h with hw | ⟨w, hw, rfl⟩ | ⟨f, rfl⟩
  · exact .inl hw.diagOut
  · exact .inl ((exit_diagOut w _).trans hw.diagOut)
  · exact .inr ⟨f, takeFault_spec f s⟩

theorem fetched_nil {s : State} (h : ¬ inRange s.cfg s.ip = true) : s.fetched = [] := if_neg h

theorem decode_nil : decode [] = .error (.missing 0) := rfl

theorem fetchFault_missing_zero (ip : Int) : fetchFault ip (.missing 0) = .memOutOfRange ip .fetch := by
  simp [fetchFault]

/-- R91 and R145, in every state. -/
theorem targetCheckedAtFetch (s : State) : TargetCheckedAtFetch s := by
  intro hout
  have hdec : decode s.fetched = .error (.missing 0) := by
    rw [fetched_nil (mt inRange_iff.mp hout), decode_nil]
  refine ⟨_, runEngine_of_decode_error hdec, ?_⟩
  rw [fetchFault_missing_zero]
  exact takeFault_spec _ s

/-- Settles O6: outside memory the fetch window is empty, so the decoder misses the word at offset 0; inside it begins with the
word at IP. -/
theorem opcodeFetchIsBoundsChecked : Obligations.OpcodeFetchIsBoundsChecked := by
  constructor
  · intro s hfree hout
    rw [step_of_runsFreely hfree]
    exact targetCheckedAtFetch s hout
  · intro s hlow hhigh
    rw [fetched_cons (inRange_iff.mpr ⟨hlow, hhigh⟩), List.head?_cons]

end Sys2Proof.Machine
end

section
/-! PROOF. Data movement (41_move.md): what an instruction leaves whose whole effect is one register write in the advanced
working copy (R93, R94), with MOVI and MOV as its instances. -/

namespace Sys2Proof.Machine

theorem onlyRegisters_refl (s : State) : OnlyRegisters s s := ⟨sameMemory_refl s, rfl, rfl, sameSession_refl s⟩

theorem OnlyRegisters.setReg {s t : State} (h : OnlyRegisters s t) (r : Reg) (v : Int) : OnlyRegisters s (t.setReg r v) := h

theorem OnlyRegisters.advance {s t : State} (h : OnlyRegisters s t) (f : Format) : OnlyRegisters s (t.advance f) := h

/-- The destination is written after the advance, so a write to IP is a jump (R94). -/
theorem commit_advance_setReg (s : State) (f : Format) (rd : Reg) (v : Int) :
    ∃ t, commit s (.continued ((s.advance f).setReg rd v)) = .next t ∧ t.reg rd = v ∧
      (∀ r, r ≠ rd → t.reg r = readDuring s f.length r) ∧ OnlyRegisters s t := by
  refine ⟨(s.advance f).setReg rd v, rfl, reg_setReg_same _ rd v, ?_, ((onlyRegisters_refl s).advance f).setReg rd v⟩
  intro r hr
  rw [reg_setReg_other _ v hr, reg_advance]

theorem exec_movi (imm : Int) (rd : Reg) (s : State) :
    exec (.movi imm rd) s = commit s (.continued ((s.advance .f2ir).setReg rd imm)) := rfl

/-- The source is read in the advanced working copy (R94). -/
theorem exec_mov (rs rd : Reg) (s : State) :
    exec (.mov rs rd) s = commit s (.continued ((s.advance .f2rr).setReg rd (readDuring s 3 rs))) := by
  rw [← length_f2rr, ← reg_advance]
  rfl

/-- Settles O13: MOVI is the write of its immediate in the advanced working copy. -/
theorem moviWritesItsImmediate : Obligations.MoviWritesItsImmediate := by
  intro s imm rd
  refine ⟨rfl, ?_⟩
  rw [exec_movi]
  exact commit_advance_setReg s .f2ir rd imm

/-- Settles O14: MOV is the write, in the advanced working copy, of what its source reads there. -/
theorem movCopiesTheSource : Obligations.MovCopiesTheSource := by
  intro s rs rd
  refine ⟨rfl, ?_⟩
  rw [exec_mov]
  exact commit_advance_setReg s .f2rr rd (readDuring s 3 rs)

end Sys2Proof.Machine
end

section
/-! PROOF. Arithmetic (42_alu.md section 2): the working copy of an ALU instruction that completes, for any operation of the
ALU, with ADD, SUB and MUL as its instances. -/

namespace Sys2Proof.Machine

/-- The advanced working copy with `op` of the destination and the source, both read in it (R94), in the destination. -/
def aluCopy (op : Config → Int → Int → Int) (rs rd : Reg) (s : State) : State :=
  let w := s.advance .f2rr
  w.setReg rd (op w.cfg (w.reg rd) (w.reg rs))

theorem aluCopy_eq (op : Config → Int → Int → Int) (rs rd : Reg) (s : State) :
    aluCopy op rs rd s = (s.advance .f2rr).setReg rd (op s.cfg (readDuring s 3 rd) (readDuring s 3 rs)) := by
  simp only [aluCopy, reg_advance, advance_cfg, length_f2rr]

theorem commit_aluCopy (op : Config → Int → Int → Int) (rs rd : Reg) (s : State) :
    ∃ t, commit s (.continued (aluCopy op rs rd s)) = .next t ∧
      t.reg rd = op s.cfg (readDuring s 3 rd) (readDuring s 3 rs) ∧
      (∀ r, r ≠ rd → t.reg r = readDuring s 3 r) ∧ OnlyRegisters s t := by
  rw [aluCopy_eq]
  exact commit_advance_setReg s .f2rr rd _

theorem exec_add (rs rd : Reg) (s : State) : exec (.add rs rd) s = commit s (.continued (aluCopy aluAdd rs rd s)) := rfl

theorem exec_sub (rs rd : Reg) (s : State) : exec (.sub rs rd) s = commit s (.continued (aluCopy aluSub rs rd s)) := rfl

theorem exec_mul (rs rd : Reg) (s : State) : exec (.mul rs rd) s = commit s (.continued (aluCopy aluMul rs rd s)) := rfl

/-- Settles O15: ADD leaves the ALU's working copy with `aluAdd`, the wrapped sum (R120). -/
theorem addWritesTheWrappedSum : Obligations.AddWritesTheWrappedSum := by
  intro s rs rd
  refine ⟨rfl, ?_⟩
  rw [exec_add]
  exact commit_aluCopy aluAdd rs rd s

/-- Settles O16: SUB leaves the ALU's working copy with `aluSub`, the wrapped difference (R121). -/
theorem subWritesTheWrappedDifference : Obligations.SubWritesTheWrappedDifference := by
  intro s rs rd
  refine ⟨rfl, ?_⟩
  rw [exec_sub]
  exact commit_aluCopy aluSub rs rd s

/-- Settles O17: MUL leaves the ALU's working copy with `aluMul`, the wrapped product (R122). -/
theorem mulWritesTheWrappedProduct : Obligations.MulWritesTheWrappedProduct := by
  intro s rs rd
  refine ⟨rfl, ?_⟩
  rw [exec_mul]
  exact commit_aluCopy aluMul rs rd s

end Sys2Proof.Machine
end

section
/-! PROOF. Control transfer (43_control.md): what an instruction leaves whose whole effect is on IP, with JMP, JNZ and RET as
its instances. -/

namespace Sys2Proof.Machine

/-- A jump overwrites the advance (R94). -/
@[simp] theorem setReg_ip_advance (s : State) (f : Format) (v : Int) : (s.advance f).setReg Reg.ip v = s.setReg Reg.ip v := by
  simp [State.advance, State.setReg]

/-- Nothing checks the target before the next fetch (R145). -/
theorem commit_setReg_ip (s : State) (v : Int) :
    ∃ t, commit s (.continued (s.setReg Reg.ip v)) = .next t ∧ t.ip = v ∧ (∀ r, r ≠ Reg.ip → t.reg r = s.reg r) ∧
      OnlyRegisters s t ∧ TargetCheckedAtFetch t :=
  ⟨s.setReg Reg.ip v, rfl, reg_setReg_same s Reg.ip v, fun _ hr => reg_setReg_other s v hr,
    (onlyRegisters_refl s).setReg Reg.ip v, targetCheckedAtFetch _⟩

theorem exec_jmp (ra : Reg) (s : State) :
    exec (.jmp ra) s = commit s (.continued (s.setReg Reg.ip (readDuring s 2 ra))) := by
  rw [← length_f1r, ← reg_advance, ← setReg_ip_advance s .f1r]
  rfl

/-- The zero test (R124). -/
@[simp] theorem aluNz_iff {v : Int} : aluNz v = true ↔ v ≠ 0 := by simp [aluNz]

/-- Where the test fails, JNZ leaves the advance as it is: a jump to the advanced IP. -/
theorem exec_jnz (rs ra : Reg) (s : State) :
    exec (.jnz rs ra) s =
      commit s (.continued (s.setReg Reg.ip (if readDuring s 3 rs = 0 then s.ip + 3 else readDuring s 3 ra))) := by
  simp only [exec, execJnz, reg_advance, length_f2rr, aluNz_iff, setReg_ip_advance]
  by_cases hz : readDuring s 3 rs = 0
  · rw [if_neg (not_not_intro hz), if_pos hz]
    rfl
  · rw [if_pos hz, if_neg hz]

theorem exec_ret (s : State) : exec .ret s = commit s (.continued (s.setReg Reg.ip (s.reg Reg.rp))) := by
  have hrp : (s.advance .f0).reg Reg.rp = s.reg Reg.rp := reg_setReg_other s _ (by decide)
  rw [← hrp, ← setReg_ip_advance s .f0]
  rfl

/-- Settles O23: JMP is the jump to what its register reads in the advanced working copy. -/
theorem jmpGoesToTheRegisterValue : Obligations.JmpGoesToTheRegisterValue := by
  intro s ra
  refine ⟨rfl, ?_⟩
  rw [exec_jmp]
  exact commit_setReg_ip s (readDuring s 2 ra)

/-- Settles O24: JNZ is the jump to what its second register reads in the advanced working copy, or, on a zero, to the advanced
IP. -/
theorem jnzJumpsOnNonZero : Obligations.JnzJumpsOnNonZero := by
  intro s rs ra
  refine ⟨rfl, ?_⟩
  rw [exec_jnz]
  obtain ⟨t, hnext, hip, hframe⟩ := commit_setReg_ip s (if readDuring s 3 rs = 0 then s.ip + 3 else readDuring s 3 ra)
  exact ⟨t, hnext, fun hnz => hip.trans (if_neg hnz), fun hz => hip.trans (if_pos hz), hframe⟩

/-- Settles O27: RET is the jump to RP, which the advance does not touch. -/
theorem retGoesToTheReturnPointer : Obligations.RetGoesToTheReturnPointer := by
  intro s
  refine ⟨rfl, ?_⟩
  rw [exec_ret]
  exact commit_setReg_ip s (s.reg Reg.rp)

end Sys2Proof.Machine
end

section
/-! PROOF. Output (44_output.md): OUT as one emission on `data_out` from the advanced working copy (R97). -/

namespace Sys2Proof.Machine

/-- The source is read in the advanced working copy (R94). -/
theorem exec_out (rs : Reg) (s : State) :
    exec (.out rs) s = commit s (.continued ((s.advance .f1r).emitData (readDuring s 2 rs))) := by
  rw [← length_f1r, ← reg_advance]
  rfl

/-- An emission changes no register, so every read of what it leaves is a read of the advanced working copy. -/
theorem commit_advance_emitData (s : State) (f : Format) (v : Int) :
    ∃ t, commit s (.continued ((s.advance f).emitData v)) = .next t ∧ t.dataOut = s.dataOut ++ [v] ∧
      (∀ r, t.reg r = readDuring s f.length r) ∧ SameMemory s t ∧ t.status = s.status ∧ SameSession s t :=
  ⟨(s.advance f).emitData v, rfl, emitData_dataOut _ v, reg_advance s f, sameMemory_refl s, rfl, sameSession_refl s⟩

/-- Settles O28: OUT is the emission, from the advanced working copy, of what its source reads there. -/
theorem outAppendsOneWord : Obligations.OutAppendsOneWord := by
  intro s rs
  refine ⟨rfl, ?_⟩
  rw [exec_out]
  exact commit_advance_emitData s .f1r (readDuring s 2 rs)

end Sys2Proof.Machine
end

section
/-! PROOF. Loads, stores and the stack (45_loadstore.md): a data access from the advanced working copy completes or faults (R50),
with the six instructions as its instances, and PUSH followed by POP (R177). -/

namespace Sys2Proof.Machine

/-- The advance touches only IP (R93). -/
theorem readDuring_of_ne_ip (s : State) (n : Nat) {r : Reg} (h : r ≠ Reg.ip) : readDuring s n r = s.reg r := if_neg h

theorem eaReg_advance (s : State) (f : Format) (ra : Reg) : eaReg (s.advance f) ra = readDuring s f.length ra :=
  reg_advance s f ra

theorem eaPush_advance (s : State) (f : Format) : eaPush (s.advance f) = s.reg Reg.sp :=
  (reg_advance s f _).trans (readDuring_of_ne_ip s _ (by decide))

theorem eaPop_advance (s : State) (f : Format) : eaPop (s.advance f) = wrap s.cfg (s.reg Reg.sp - 1) := by
  rw [eaPop, reg_advance, readDuring_of_ne_ip s _ (by decide)]
  rfl

theorem eaFrame_advance (s : State) (f : Format) (imm : Int) :
    eaFrame (s.advance f) imm = wrap s.cfg (s.reg Reg.fp + imm) := by
  rw [eaFrame, reg_advance, readDuring_of_ne_ip s _ (by decide)]
  rfl

/-! ### The data access -/

theorem commit_continued (s t : State) : commit s (.continued t) = .next t := rfl

theorem commit_faulted (s : State) (e : ExecFault) : ∃ t, commit s (.faulted e) = .next t ∧ FaultTaken e s t :=
  ⟨takeFault e s, rfl, takeFault_spec e s⟩

theorem withRead_advance_inRange {s : State} {a : Int} (f : Format) (k : Int → StepOutcome)
    (h : 0 ≤ a ∧ a < s.cfg.memWords) : withRead (s.advance f) a k = k (s.mem.read (addrOf a)) :=
  withRead_inRange (w := s.advance f) k (inRange_iff.mpr h)

theorem withWrite_advance_inRange {s : State} {a v : Int} (f : Format) (k : State → StepOutcome)
    (h : 0 ≤ a ∧ a < s.cfg.memWords) : withWrite (s.advance f) a v k = k ((s.advance f).memWrite a v) :=
  withWrite_inRange (w := s.advance f) k (inRange_iff.mpr h)

/-- A read the address decoder refuses is a fault taken in the state before the step, whatever was to become of the word. -/
theorem commit_withRead_outOfRange {s : State} {a : Int} (f : Format) (k : Int → StepOutcome)
    (h : ¬ (0 ≤ a ∧ a < s.cfg.memWords)) :
    ∃ t, commit s (withRead (s.advance f) a k) = .next t ∧ FaultTaken (.memOutOfRange a .read) s t := by
  rw [withRead_outOfRange (w := s.advance f) k (mt inRange_iff.mp h)]
  exact commit_faulted s _

/-- The same for a write. -/
theorem commit_withWrite_outOfRange {s : State} {a v : Int} (f : Format) (k : State → StepOutcome)
    (h : ¬ (0 ≤ a ∧ a < s.cfg.memWords)) :
    ∃ t, commit s (withWrite (s.advance f) a v k) = .next t ∧ FaultTaken (.memOutOfRange a .write) s t := by
  rw [withWrite_outOfRange (w := s.advance f) k (mt inRange_iff.mp h)]
  exact commit_faulted s _

/-! ### Loads: LD and LDLO -/

/-- The word at `a` into `rd`, in the advanced working copy. -/
def loadOutcome (f : Format) (a : Int) (rd : Reg) (s : State) : StepOutcome :=
  withRead (s.advance f) a fun v => .continued ((s.advance f).setReg rd v)

theorem commit_loadOutcome (f : Format) (a : Int) (rd : Reg) (s : State) :
    (0 ≤ a ∧ a < s.cfg.memWords →
      ∃ t, commit s (loadOutcome f a rd s) = .next t ∧ t.reg rd = s.mem.read (addrOf a) ∧
        (∀ r, r ≠ rd → t.reg r = readDuring s f.length r) ∧ OnlyRegisters s t) ∧
    (¬ (0 ≤ a ∧ a < s.cfg.memWords) →
      ∃ t, commit s (loadOutcome f a rd s) = .next t ∧ FaultTaken (.memOutOfRange a .read) s t) := by
  refine ⟨fun hin => ?_, commit_withRead_outOfRange f _⟩
  rw [loadOutcome, withRead_advance_inRange f _ hin]
  exact commit_advance_setReg s f rd _

theorem exec_ld (ra rd : Reg) (s : State) :
    exec (.ld ra rd) s = commit s (loadOutcome .f2rr (readDuring s 3 ra) rd s) := by
  rw [← length_f2rr, ← eaReg_advance]
  rfl

theorem exec_ldlo (imm : Int) (rd : Reg) (s : State) :
    exec (.ldlo imm rd) s = commit s (loadOutcome .f2ir (wrap s.cfg (s.reg Reg.fp + imm)) rd s) := by
  rw [← eaFrame_advance s .f2ir]
  rfl

/-- Settles O30: LD is the load from what its address register reads in the advanced working copy. -/
theorem ldLoadsOrFaults : Obligations.LdLoadsOrFaults := by
  rintro s ra rd a rfl
  rw [exec_ld]
  exact ⟨rfl, commit_loadOutcome .f2rr _ rd s⟩

/-- Settles O34: LDLO is the load from the frame address, which the advance does not touch. -/
theorem ldloLoadsOrFaults : Obligations.LdloLoadsOrFaults := by
  rintro s imm rd a rfl
  rw [exec_ldlo]
  exact ⟨rfl, commit_loadOutcome .f2ir _ rd s⟩

/-! ### Stores: ST and STLO -/

theorem read_memWrite_same {s : State} (a v : Int) (h : s.mem.wf = true) : (s.memWrite a v).mem.read (addrOf a) = v := by
  rw [memWrite_mem, read_write _ _ _ h, if_pos rfl]

theorem OnlyRegisters.memWrite {s t : State} (h : OnlyRegisters s t) (hwf : t.mem.wf = true) (a v : Int) :
    OnlyRegistersAndWord (addrOf a) s (t.memWrite a v) := by
  obtain ⟨hmem, hrest⟩ := h
  refine ⟨fun b hb => ?_, hrest⟩
  rw [memWrite_mem, read_write _ _ _ hwf, if_neg hb, hmem b]

theorem OnlyRegistersAndWord.setReg {a : Nat} {s t : State} (h : OnlyRegistersAndWord a s t) (r : Reg) (v : Int) :
    OnlyRegistersAndWord a s (t.setReg r v) := h

theorem OnlyRegistersAndWord.cfg {a : Nat} {s t : State} (h : OnlyRegistersAndWord a s t) : t.cfg = s.cfg := by
  obtain ⟨-, -, -, ⟨hcfg, -⟩, -⟩ := h
  exact hcfg

/-- The value `v` into the word at `a`, in the advanced working copy. -/
def storeOutcome (f : Format) (a v : Int) (s : State) : StepOutcome :=
  withWrite (s.advance f) a v .continued

theorem advance_memWrite_frame {s : State} (f : Format) (a v : Int) (hwf : s.mem.wf = true) :
    OnlyRegistersAndWord (addrOf a) s ((s.advance f).memWrite a v) :=
  ((onlyRegisters_refl s).advance f).memWrite hwf a v

theorem commit_storeOutcome (f : Format) (a v : Int) {s : State} (hwf : s.mem.wf = true) :
    (0 ≤ a ∧ a < s.cfg.memWords →
      ∃ t, commit s (storeOutcome f a v s) = .next t ∧ t.mem.read (addrOf a) = v ∧
        (∀ r, t.reg r = readDuring s f.length r) ∧ OnlyRegistersAndWord (addrOf a) s t) ∧
    (¬ (0 ≤ a ∧ a < s.cfg.memWords) →
      ∃ t, commit s (storeOutcome f a v s) = .next t ∧ FaultTaken (.memOutOfRange a .write) s t) := by
  refine ⟨fun hin => ?_, commit_withWrite_outOfRange f _⟩
  rw [storeOutcome, withWrite_advance_inRange f _ hin]
  exact ⟨_, commit_continued s _, read_memWrite_same (s := s.advance f) a v hwf, reg_advance s f,
    advance_memWrite_frame f a v hwf⟩

theorem exec_st (ra rs : Reg) (s : State) :
    exec (.st ra rs) s = commit s (storeOutcome .f2rr (readDuring s 3 ra) (readDuring s 3 rs) s) := by
  rw [← length_f2rr, ← eaReg_advance, ← reg_advance]
  rfl

theorem exec_stlo (imm : Int) (rs : Reg) (s : State) :
    exec (.stlo imm rs) s =
      commit s (storeOutcome .f2ir (wrap s.cfg (s.reg Reg.fp + imm)) (readDuring s 3 rs) s) := by
  rw [← eaFrame_advance s .f2ir, ← length_f2ir, ← reg_advance]
  rfl

/-- Settles O31: ST is the store, from the advanced working copy, of what its source reads there. -/
theorem stStoresOrFaults : Obligations.StStoresOrFaults := by
  rintro s ra rs a hwf rfl
  rw [exec_st]
  exact ⟨rfl, commit_storeOutcome .f2rr _ _ hwf⟩

/-- Settles O35: STLO is the store to the frame address, which the advance does not touch. -/
theorem stloStoresOrFaults : Obligations.StloStoresOrFaults := by
  rintro s imm rs a hwf rfl
  rw [exec_stlo]
  exact ⟨rfl, commit_storeOutcome .f2ir _ _ hwf⟩

/-! ### The stack: PUSH and POP -/

theorem exec_push (rs : Reg) (s : State) :
    exec (.push rs) s = commit s (withWrite (s.advance .f1r) (s.reg Reg.sp) (readDuring s 2 rs) fun t =>
      .continued (t.setReg Reg.sp (s.reg Reg.sp + 1))) := by
  rw [← length_f1r, ← reg_advance, ← eaPush_advance s .f1r]
  rfl

theorem exec_pop (rd : Reg) (s : State) :
    exec (.pop rd) s = commit s (withRead (s.advance .f1r) (wrap s.cfg (s.reg Reg.sp - 1)) fun v =>
      .continued (((s.advance .f1r).setReg Reg.sp (wrap s.cfg (s.reg Reg.sp - 1))).setReg rd v)) := by
  rw [← eaPop_advance s .f1r]
  rfl

/-- The bound of R5 leaves room above MEM_WORDS, so the stack pointer of a full stack is still a word. -/
theorem isWord_of_le_memWords {c : Config} (hc : c.Valid) {v : Int} (h0 : 0 ≤ v) (hv : v ≤ c.memWords) : c.IsWord v := by
  obtain ⟨-, hbound, -⟩ := hc
  constructor <;> omega

/-- Settles O32: PUSH is the store at SP, in the advanced working copy, followed by the write of SP, which leaves memory
alone and, by R5's bound, does not wrap. -/
theorem pushStoresOrFaults : Obligations.PushStoresOrFaults := by
  rintro s rs a hwf rfl
  rw [exec_push]
  refine ⟨rfl, fun hin => ?_, commit_withWrite_outOfRange .f1r _⟩
  rw [withWrite_advance_inRange .f1r _ hin]
  refine ⟨_, commit_continued s _, read_memWrite_same (s := s.advance .f1r) _ _ hwf, reg_setReg_same _ _ _,
    fun hc => ?_, fun r hr => ?_, (advance_memWrite_frame .f1r _ _ hwf).setReg _ _⟩
  · rw [reg_setReg_same]
    exact isWord_of_le_memWords hc (by omega) (by omega)
  · rw [reg_setReg_other _ _ hr, reg_memWrite, reg_advance, length_f1r]

/-- Settles O33: POP is the read below SP, in the advanced working copy, followed by the write of SP and then, over it if they are
the same register, of the destination. -/
theorem popLoadsOrFaults : Obligations.PopLoadsOrFaults := by
  rintro s rd a rfl
  rw [exec_pop]
  refine ⟨rfl, fun hin => ?_, commit_withRead_outOfRange .f1r _⟩
  rw [withRead_advance_inRange .f1r _ hin]
  refine ⟨_, commit_continued s _, reg_setReg_same _ _ _, fun hrd => ?_, fun r hsp hr => ?_,
    (((onlyRegisters_refl s).advance .f1r).setReg _ _).setReg _ _⟩
  · rw [reg_setReg_other _ _ hrd.symm, reg_setReg_same]
  · rw [reg_setReg_other _ _ hr, reg_setReg_other _ _ hsp, reg_advance, length_f1r]

/-- Settles O36: PUSH leaves SP one above the word it stored, so the address POP reads is that word's, and no wrap changes it. -/
theorem pushThenPopRestoresTheStack : Obligations.PushThenPopRestoresTheStack := by
  intro s r q hc hwf hlow hhigh hq
  obtain ⟨-, hpush, -⟩ := pushStoresOrFaults s r _ hwf rfl
  obtain ⟨t, ht, hstored, hsp, -, -, hframe⟩ := hpush ⟨hlow, hhigh⟩
  have haddr : s.reg Reg.sp = wrap t.cfg (t.reg Reg.sp - 1) := by
    rw [hsp, add_sub_cancel_right, hframe.cfg,
      wrap_of_isWord (wordBits_ne_of_valid hc) (isWord_of_le_memWords hc hlow hhigh.le)]
  obtain ⟨-, hpop, -⟩ := popLoadsOrFaults t q _ haddr
  obtain ⟨u, hu, hloaded, hsp', -⟩ := hpop ⟨hlow, hframe.cfg ▸ hhigh⟩
  exact ⟨t, u, ht, hu, hsp' hq, hloaded.trans hstored⟩

end Sys2Proof.Machine
end

section
/-! PROOF. What a session does with a received line (46_debugger.md section 2): the reports, `quit`, and a word that names no
command. -/

namespace Sys2Proof.Machine

theorem step_of_line {s : State} {w : Token} {arg : Option Token} {rest : List CmdIn} (h : Receives s (.line w arg) rest) :
    step s = dispatchLine w arg (received s rest) :=
  step_of_receives h

theorem dispatchLine_of_command {w : Token} {c : Command} (hd : decodeCommand w = .command c) (arg : Option Token) (s : State) :
    dispatchLine w arg s = runCommand c arg s := by
  simp only [dispatchLine, hd]

theorem dispatchLine_of_unmatched {w : Token} (hd : decodeCommand w = .noMatch ∨ decodeCommand w = .ambiguous)
    (arg : Option Token) (s : State) : dispatchLine w arg s = .next s := by
  rcases hd with hd | hd <;> simp only [dispatchLine, hd]

theorem step_of_command {s : State} {w : Token} {arg : Option Token} {rest : List CmdIn} {c : Command}
    (h : Receives s (.line w arg) rest) (hd : decodeCommand w = .command c) :
    step s = runCommand c arg (received s rest) :=
  (step_of_line h).trans (dispatchLine_of_command hd arg _)

/-- Settles O47: each of the four commands is one report, or the exit, in the state in which the line is handled. -/
theorem helpListFrameQuit : Obligations.HelpListFrameQuit := by
  intro s w arg rest h
  exact ⟨step_of_command h, step_of_command h, step_of_command h, step_of_command h⟩

/-! ### The next prompt -/

theorem runCommand_answers (c : Command) (arg : Option Token) (s : State) : ∃ t, runCommand c arg s = .next t := by
  cases c with
  | step => exact runEngine_answers s
  | cont => exact runEngine_answers _
  | help | quit | list | print | examine | frame | restart | breakAt | delete => exact ⟨_, rfl⟩

theorem runCommand_historiesExtend {c : Command} {arg : Option Token} {s t : State} (h : runCommand c arg s = .next t) :
    HistoriesExtend s t := by
  by_cases hstep : c = .step
  · subst hstep
    exact runEngine_historiesExtend h
  by_cases hcont : c = .cont
  · subst hcont
    exact runEngine_historiesExtend (s := { s with paused := false }) h
  by_cases hrestart : c = .restart
  · subst hrestart
    injection h with h
    exact h ▸ requestLoader_historiesExtend s
  rcases runCommand_cases hstep hcont hrestart h with ⟨-, rfl⟩ | ⟨e, rfl, -⟩ | ⟨b, rfl, -⟩
  · exact historiesExtend_of_eq rfl rfl
  · exact historiesExtend_of_diag rfl (emitDiag_diagOut s e)
  · exact historiesExtend_of_eq rfl rfl

/-- Whatever transaction is received, its handling answers and keeps the events there were. -/
theorem handleInput_answers (c : CmdIn) (s : State) : ∃ t, handleInput c s = .next t ∧ HistoriesExtend s t := by
  cases c with
  | endOfInput =>
    obtain ⟨t, ht⟩ := runEngine_answers { s with debugEnabled := false, paused := false }
    exact ⟨t, ht, runEngine_historiesExtend (s := { s with debugEnabled := false, paused := false }) ht⟩
  | line w arg =>
    simp only [handleInput]
    cases hd : decodeCommand w with
    | command c =>
      obtain ⟨t, ht⟩ := runCommand_answers c arg s
      exact ⟨t, (dispatchLine_of_command hd arg s).trans ht, runCommand_historiesExtend ht⟩
    | noMatch => exact ⟨s, dispatchLine_of_unmatched (.inl hd) arg s, historiesExtend_of_eq rfl rfl⟩
    | ambiguous => exact ⟨s, dispatchLine_of_unmatched (.inr hd) arg s, historiesExtend_of_eq rfl rfl⟩

/-- A step that listens to `cmd_in` begins with the events of receiving, whether or not a transaction is there. -/
theorem step_emits_received {s : State} (h : Listens s) :
    ∃ t, step s = .next t ∧ (received s s.cmdIn.tail).diagOut <+: t.diagOut := by
  rw [step_of_listens h]
  cases s.cmdIn with
  | nil => exact ⟨_, rfl, List.prefix_rfl⟩
  | cons c rest =>
    obtain ⟨t, ht, -, hdiag⟩ := handleInput_answers c (received s rest)
    exact ⟨t, ht, hdiag⟩

/-- R202: the first event of an iteration that begins in a paused session is the prompt. -/
theorem received_diagOut_of_paused {s : State} (hwait : s.wait = .nothing) (hpaused : s.paused = true) (rest : List CmdIn) :
    (received s rest).diagOut = s.diagOut ++ [.prompt s.ip] := by
  have hnot : ¬ AtBreakpoint s := fun ⟨_, _, hfree, _⟩ => nomatch hpaused.symm.trans hfree
  simp [hitEvents_not hnot, hwait]

/-- Settles O44: an unmatched word leaves the state in which the line was to be handled, which waits for nothing and, paused in
debug mode, listens again. -/
theorem unmatchedInputDoesNothing : Obligations.UnmatchedInputDoesNothing := by
  intro s w arg rest h hd
  refine ⟨(step_of_line h).trans (dispatchLine_of_unmatched hd arg _), fun hdebug hpaused => ?_⟩
  have hlistens : Listens (received s rest) := ⟨h.1.1, .inl ⟨rfl, hdebug, hpaused⟩⟩
  obtain ⟨t, ht, hdiag⟩ := step_emits_received hlistens
  rw [received_diagOut_of_paused rfl hpaused] at hdiag
  exact ⟨t, ht, hdiag⟩

end Sys2Proof.Machine
end

section
/-! PROOF. The breakpoint check (R201): an iteration goes on from the state the check leaves. -/

namespace Sys2Proof.Machine

theorem breakpointCheck_of_atBreakpoint {s : State} (h : AtBreakpoint s) :
    breakpointCheck s = { s with paused := true, diagOut := s.diagOut ++ [.breakpointHit s.ip] } := by
  obtain ⟨-, hdebug, hpaused, hip⟩ := h
  exact if_pos ⟨hdebug, by simp [hpaused], hip⟩

theorem breakpointCheck_of_paused {s : State} (h : s.paused = true) : breakpointCheck s = s :=
  if_neg fun ⟨_, hnot, _⟩ => hnot h

theorem step_of_nothing {s : State} (hrun : s.status = .running) (hwait : s.wait = .nothing) : step s = iteration s := by
  simp only [step, blockStep, hrun, hwait]

/-- Two states that the breakpoint check makes one go on alike. -/
theorem iteration_congr {s t : State} (h : breakpointCheck s = breakpointCheck t) : iteration s = iteration t := by
  simp only [iteration, h]

/-- Settles O38: the check makes of a session at its breakpoint the paused one with the hit announced, and leaves that one
alone. -/
theorem breakpointPausesBeforeTheStep : Obligations.BreakpointPausesBeforeTheStep := by
  intro s hrun hwait hdebug hpaused hip
  have hcheck : breakpointCheck s =
      breakpointCheck { s with paused := true, diagOut := s.diagOut ++ [.breakpointHit s.ip] } := by
    rw [breakpointCheck_of_atBreakpoint ⟨hwait, hdebug, hpaused, hip⟩, breakpointCheck_of_paused rfl]
  rw [step_of_nothing hrun hwait, iteration_congr hcheck, eq_comm]
  exact step_of_nothing hrun hwait

end Sys2Proof.Machine
end

section
/-! PROOF. What a command that neither runs the engine nor asks the loader leaves alone (R231). -/

namespace Sys2Proof.Machine

@[simp] theorem cmdPrint_breakpoint (arg : Option Token) (s : State) : (cmdPrint arg s).breakpoint = s.breakpoint := by
  unfold cmdPrint
  split
  · rfl
  · split <;> rfl

@[simp] theorem cmdExamine_breakpoint (arg : Option Token) (s : State) : (cmdExamine arg s).breakpoint = s.breakpoint := by
  unfold cmdExamine
  split <;> rfl

section

variable {c : Command} {arg : Option Token} {s t : State} (hstep : c ≠ .step) (hcont : c ≠ .cont) (hrestart : c ≠ .restart)
  (h : runCommand c arg s = .next t)
include hstep hcont hrestart h

theorem runCommand_keepsMachine :
    SameSnapshot s t ∧ t.dataOut = s.dataOut ∧ t.debugEnabled = s.debugEnabled ∧ t.paused = s.paused := by
  have hsame : SameSnapshot s s := ⟨fun _ => rfl, sameMemory_refl s⟩
  rcases runCommand_cases hstep hcont hrestart h with ⟨-, rfl⟩ | ⟨e, rfl, -⟩ | ⟨b, rfl, -⟩
  · exact ⟨hsame, rfl, rfl, rfl⟩
  · exact ⟨hsame, rfl, rfl, rfl⟩
  · exact ⟨hsame, rfl, rfl, rfl⟩

/-- Of the three things such a command can do, only a report adds an event. -/
theorem runCommand_of_cmdError {e : CmdError} (he : t.diagOut = s.diagOut ++ [.cmdError e]) :
    t = s.emitDiag (.cmdError e) := by
  rcases runCommand_cases hstep hcont hrestart h with ⟨-, rfl⟩ | ⟨event, rfl, -⟩ | ⟨b, rfl, -⟩
  · simp at he
  · rw [emitDiag_diagOut, List.append_cancel_left_eq, List.singleton_inj] at he
    rw [he]
  · simp at he

theorem runCommand_breakpoint (hbreak : c ≠ .breakAt) (hdelete : c ≠ .delete) : t.breakpoint = s.breakpoint := by
  cases c with
  | step | cont | restart | breakAt | delete => contradiction
  | help | quit | list | frame => injection h with h; exact h ▸ rfl
  | print => injection h with h; exact h ▸ cmdPrint_breakpoint arg s
  | examine => injection h with h; exact h ▸ cmdExamine_breakpoint arg s

end

theorem cmdBreak_cases (arg : Option Token) (s : State) :
    (∃ b, cmdBreak arg s = { s with breakpoint := b }) ∨ ∃ e, cmdBreak arg s = s.emitDiag (.cmdError e) := by
  unfold cmdBreak
  split
  · exact .inl ⟨_, rfl⟩
  · split
    · exact .inl ⟨_, rfl⟩
    · exact .inr ⟨_, rfl⟩

theorem cmdDelete_cases (s : State) :
    (∃ b, cmdDelete s = { s with breakpoint := b }) ∨ ∃ e, cmdDelete s = s.emitDiag (.cmdError e) := by
  unfold cmdDelete
  split
  · exact .inr ⟨_, rfl⟩
  · exact .inl ⟨_, rfl⟩

/-- R229 and R230: `break` and `delete` write the breakpoint or report a command error. -/
theorem runCommand_breakAt_or_delete {c : Command} {arg : Option Token} {s t : State} (hc : c = .breakAt ∨ c = .delete)
    (h : runCommand c arg s = .next t) :
    t = { s with breakpoint := t.breakpoint } ∨ ∃ e, t = s.emitDiag (.cmdError e) := by
  have hcases : (∃ b, t = { s with breakpoint := b }) ∨ ∃ e, t = s.emitDiag (.cmdError e) := by
    rcases hc with rfl | rfl <;> injection h with h <;> subst h
    · exact cmdBreak_cases arg s
    · exact cmdDelete_cases s
  rcases hcases with ⟨b, rfl⟩ | herr
  · exact .inl rfl
  · exact .inr herr

/-- Settles O51: a command that neither runs the engine nor asks the loader ends the run, reports or writes the breakpoint; only
`break` and `delete` do the last, and `continue` is its run of the engine by definition. -/
theorem debuggerNeverWritesTheSnapshot : Obligations.DebuggerNeverWritesTheSnapshot := by
  refine ⟨fun c arg s t hstep hcont hrestart h => ?_, fun _ _ => rfl⟩
  obtain ⟨hsnapshot, hdata, hdebug, hpaused⟩ := runCommand_keepsMachine hstep hcont hrestart h
  exact ⟨hsnapshot, hdata, hdebug, hpaused, fun hbreak hdelete => runCommand_breakpoint hstep hcont hrestart h hbreak hdelete,
    fun hc => runCommand_breakAt_or_delete hc h, fun e he => runCommand_of_cmdError hstep hcont hrestart h he⟩

end Sys2Proof.Machine
end

section
/-! PROOF. The end of a run (R305): the parts of a step that give an exit code, each with the condition under which it does. -/

namespace Sys2Proof.Machine

/-! ### The engine -/

/-- An outcome of the engine that is not Halt, its working copy, if there is one, still running or not as `s` was. -/
def RunsOn (s : State) (o : StepOutcome) : Prop :=
  (∃ t, o = .continued t ∧ t.status = s.status) ∨ ∃ f, o = .faulted f

theorem runsOn_continued {s t : State} (h : t.status = s.status) : RunsOn s (.continued t) := .inl ⟨t, rfl, h⟩

theorem runsOn_faulted (s : State) (f : ExecFault) : RunsOn s (.faulted f) := .inr ⟨f, rfl⟩

theorem runsOn_withRead {s w : State} {a : Int} {k : Int → StepOutcome} (hk : ∀ v, RunsOn s (k v)) :
    RunsOn s (withRead w a k) := by
  by_cases ha : inRange w.cfg a = true
  · exact withRead_inRange k ha ▸ hk _
  · exact withRead_outOfRange k ha ▸ runsOn_faulted s _

theorem runsOn_withWrite {s w : State} {a v : Int} {k : State → StepOutcome} (hk : RunsOn s (k (w.memWrite a v))) :
    RunsOn s (withWrite w a v k) := by
  by_cases ha : inRange w.cfg a = true
  · exact withWrite_inRange k ha ▸ hk
  · exact withWrite_outOfRange k ha ▸ runsOn_faulted s _

/-- HALT is the one instruction that returns Halt (R98, R142). -/
theorem exec_runsOn {i : Instr} (h : i ≠ .halt) (s : State) : ∃ o, exec i s = commit s o ∧ RunsOn s o := by
  cases i with
  | halt => contradiction
  | movi | mov | add | sub | mul | jmp | out | jal | ret => exact ⟨_, rfl, runsOn_continued rfl⟩
  | jnz rs ra => exact ⟨_, exec_jnz rs ra s, runsOn_continued rfl⟩
  | idiv rs rd =>
    refine ⟨_, rfl, ?_⟩
    split
    · exact runsOn_faulted s _
    · split
      · exact runsOn_faulted s _
      · exact runsOn_continued rfl
  | ld | pop | ldlo => exact ⟨_, rfl, runsOn_withRead fun _ => runsOn_continued rfl⟩
  | st | push | stlo => exact ⟨_, rfl, runsOn_withWrite (runsOn_continued rfl)⟩

theorem exec_halt (s : State) : exec .halt s = .next ((s.advance .f0).exit exitOk) := rfl

theorem runEngine_of_decode_ok {s : State} {i : Instr} {rest : List Int} (h : decode s.fetched = .ok (i, rest)) :
    runEngine s = exec i s := by
  simp only [runEngine, h]

/-- What a run of the engine makes of the status: it leaves it, it has executed HALT, or it has taken a fault. -/
theorem runEngine_status {s t : State} (h : runEngine s = .next t) :
    t.status = s.status ∨ (∃ rest, decode s.fetched = .ok (.halt, rest)) ∨ ∃ f, t = takeFault f s := by
  rcases runEngine_cases s with ⟨i, rest, hdec, hrun⟩ | ⟨e, -, hrun⟩
  · by_cases hi : i = .halt
    · exact .inr (.inl ⟨rest, hi ▸ hdec⟩)
    · obtain ⟨o, ho, hon⟩ := exec_runsOn hi s
      rw [hrun, ho, commit_next] at h
      rcases hon with ⟨w, rfl, hstatus⟩ | ⟨f, rfl⟩
      · exact .inl (h ▸ hstatus)
      · exact .inr (.inr ⟨f, h.symm⟩)
  · rw [hrun] at h
    injection h with h
    exact .inr (.inr ⟨_, h.symm⟩)

/-- R205: the engine ends the run with EXIT_OK where it executes HALT. -/
theorem runEngine_status_of_halt {s t : State} {rest : List Int} (hdec : decode s.fetched = .ok (.halt, rest))
    (h : runEngine s = .next t) : t.status = .exited exitOk := by
  rw [runEngine_of_decode_ok hdec, exec_halt] at h
  injection h with h
  exact h ▸ exit_status _ _

/-- R207: a fault taken outside debug mode ends the run. -/
theorem takeFault_status_of_not_debug {s : State} (f : ExecFault) (hdebug : s.debugEnabled = false) :
    (takeFault f s).status = .exited s.cfg.exitFailure := by
  obtain ⟨-, -, -, -, -, hexit⟩ := takeFault_spec f s
  exact (hexit hdebug).2

/-- A report of a fault by the engine is a fault taken. -/
theorem runEngine_of_faultReport {s t : State} {f : ExecFault} (h : runEngine s = .next t)
    (hdiag : t.diagOut = s.diagOut ++ [.faultReport f]) : ∃ f', t = takeFault f' s := by
  rcases runEngine_next h with hw | ⟨w, hw, rfl⟩ | hf
  · simp [hw.diagOut] at hdiag
  · simp [hw.diagOut] at hdiag
  · exact hf

/-- The two ways in which a run of the engine ends the run of the block (R205, R207). -/
theorem runEngine_exited_iff {s t : State} {code : Int} (hrun : s.status = .running) (h : runEngine s = .next t) :
    t.status = .exited code ↔
      (code = exitOk ∧ ∃ rest, decode s.fetched = .ok (.halt, rest)) ∨
      (code = s.cfg.exitFailure ∧ s.debugEnabled = false ∧ ∃ f, t.diagOut = s.diagOut ++ [.faultReport f]) := by
  constructor
  · intro hexit
    rcases runEngine_status h with hkeep | ⟨rest, hdec⟩ | ⟨f, rfl⟩
    · exact nomatch hexit.symm.trans (hkeep.trans hrun)
    · have hok := runEngine_status_of_halt hdec h
      rw [hexit, Status.exited.injEq] at hok
      exact .inl ⟨hok, rest, hdec⟩
    · obtain ⟨-, -, -, hdiag, hpause, hfail⟩ := takeFault_spec f s
      cases hdebug : s.debugEnabled with
      | true => exact nomatch hexit.symm.trans ((hpause hdebug).2.trans hrun)
      | false =>
        have hcode := (hfail hdebug).2
        rw [hexit, Status.exited.injEq] at hcode
        exact .inr ⟨hcode, rfl, f, hdiag⟩
  · rintro (⟨rfl, rest, hdec⟩ | ⟨rfl, hdebug, f, hdiag⟩)
    · exact runEngine_status_of_halt hdec h
    · obtain ⟨f', rfl⟩ := runEngine_of_faultReport h hdiag
      exact takeFault_status_of_not_debug f' hdebug

/-! ### The loader and the commands -/

/-- A load request ends the run exactly where it reports a load error (R302). -/
theorem requestLoader_exited_iff {s : State} {code : Int} (hrun : s.status = .running) :
    (requestLoader s).status = .exited code ↔
      code = s.cfg.exitFailure ∧ ∃ k, (requestLoader s).diagOut = s.diagOut ++ [.loadError k] := by
  rcases requestLoader_cases s with ⟨-, h⟩ | ⟨r, more, -, ⟨image, -, -, h⟩ | ⟨k, h⟩⟩ <;> rw [h]
  · simp [hrun]
  · simp [hrun]
  · simp [eq_comm]

/-- Of the commands that neither run the engine nor ask the loader, `quit` alone ends the run (R221). -/
theorem runCommand_exited {c : Command} {arg : Option Token} {s t : State} {code : Int} (hstep : c ≠ .step)
    (hcont : c ≠ .cont) (hrestart : c ≠ .restart) (hrun : s.status = .running) (h : runCommand c arg s = .next t)
    (hexit : t.status = .exited code) : c = .quit ∧ code = exitOk ∧ t.cmdIn = s.cmdIn := by
  rcases runCommand_cases hstep hcont hrestart h with ⟨hquit, rfl⟩ | ⟨e, rfl, -⟩ | ⟨b, rfl, -⟩
  · rw [exit_status, Status.exited.injEq] at hexit
    exact ⟨hquit, hexit.symm, rfl⟩
  · exact nomatch hexit.symm.trans hrun
  · exact nomatch hexit.symm.trans hrun

/-! ### The step -/

theorem EngineRunsFrom.runEngine_eq {s t u : State} (h : EngineRunsFrom s u) (hstep : step s = .next t) :
    runEngine u = .next t :=
  (step_of_engineRunsFrom h).symm.trans hstep

theorem LoadRequestedFrom.requestLoader_eq {s t u : State} (h : LoadRequestedFrom s u) (hstep : step s = .next t) :
    requestLoader u = t := by
  rw [step_of_loadRequestedFrom h] at hstep
  injection hstep

/-- Settles O56: a step that answers is a run of the engine, a load request, a command that does neither, or nothing but the
receiving, and of each it is known when it gives an exit code. -/
theorem runEndsOnlyInTheListedWays : Obligations.RunEndsOnlyInTheListedWays := by
  intro s t code h
  have hrun := running_of_step h
  constructor
  · intro hexit
    rcases step_cases h with ⟨u, hu, ht⟩ | ⟨u, hu, rfl⟩ | ⟨w, arg, rest, c, hr, hd, hstep, hcont, hrestart, ht⟩ |
      ⟨w, arg, rest, -, -, rfl⟩ | ⟨-, -, rfl⟩
    · rcases (runEngine_exited_iff (hu.prepared.status.trans hrun) ht).mp hexit with
        ⟨hcode, rest, hdec⟩ | ⟨hcode, hdebug, f, hdiag⟩
      · exact .inl ⟨hcode, u, rest, hu, hdec, ht⟩
      · exact .inr (.inr (.inl ⟨hu.prepared.cfg ▸ hcode, u, f, hu, hdebug, hdiag⟩))
    · obtain ⟨hcode, k, hdiag⟩ := (requestLoader_exited_iff (hu.prepared.status.trans hrun)).mp hexit
      exact .inr (.inr (.inr ⟨hu.prepared.cfg ▸ hcode, u, k, hu, hdiag⟩))
    · obtain ⟨rfl, hcode, hcmd⟩ := runCommand_exited (s := received s rest) hstep hcont hrestart hrun ht hexit
      exact .inr (.inl ⟨hcode, w, arg, rest, hr, hd, hcmd⟩)
    · exact nomatch hexit.symm.trans hrun
    · exact nomatch hexit.symm.trans hrun
  · rintro (⟨rfl, u, rest, -, hdec, ht⟩ | ⟨rfl, w, arg, rest, hr, hd, -⟩ | ⟨rfl, u, f, hu, hdebug, hdiag⟩ |
      ⟨rfl, u, k, hu, hdiag⟩)
    · exact runEngine_status_of_halt hdec ht
    · rw [step_of_command hr hd] at h
      injection h with h
      exact h ▸ exit_status _ _
    · exact (runEngine_exited_iff (hu.prepared.status.trans hrun) (hu.runEngine_eq h)).mpr
        (.inr ⟨by rw [hu.prepared.cfg], hdebug, f, hdiag⟩)
    · obtain rfl := hu.requestLoader_eq h
      exact (requestLoader_exited_iff (hu.prepared.status.trans hrun)).mpr ⟨by rw [hu.prepared.cfg], k, hdiag⟩

end Sys2Proof.Machine
end

section
/-! PROOF. Encoding and decoding (30_encoding.md): the two are inverse to each other, format by format, and what decodes is what is
well formed. -/

namespace Sys2Proof

/-! ### From an instruction to its words and back -/

/-- Every instruction has the law of its row (R70, R71, R76). -/
theorem encode_statement (i : Instr) : Laws.Encoding.Statement i := by
  cases i with
  | movi imm rd => exact Laws.Encoding.movi imm rd
  | mov rs rd => exact Laws.Encoding.mov rs rd
  | add rs rd => exact Laws.Encoding.add rs rd
  | sub rs rd => exact Laws.Encoding.sub rs rd
  | mul rs rd => exact Laws.Encoding.mul rs rd
  | idiv rs rd => exact Laws.Encoding.idiv rs rd
  | jmp ra => exact Laws.Encoding.jmp ra
  | jnz rs ra => exact Laws.Encoding.jnz rs ra
  | out rs => exact Laws.Encoding.out rs
  | halt => exact Laws.Encoding.halt
  | ld ra rd => exact Laws.Encoding.ld ra rd
  | st ra rs => exact Laws.Encoding.st ra rs
  | jal ra => exact Laws.Encoding.jal ra
  | ret => exact Laws.Encoding.ret
  | push rs => exact Laws.Encoding.push rs
  | pop rd => exact Laws.Encoding.pop rd
  | ldlo imm rd => exact Laws.Encoding.ldlo imm rd
  | stlo imm rs => exact Laws.Encoding.stlo imm rs

theorem encode_length (i : Instr) : (encode i).length = i.length := by
  obtain ⟨-, -, hlen, -⟩ := encode_statement i
  exact hlen

theorem wellFormed_encode (i : Instr) : WellFormed (encode i) = true := by
  obtain ⟨-, -, -, hwf⟩ := encode_statement i
  exact hwf

theorem decodeF1R_words (mk : Reg → Instr) (r : Reg) (rest : List Int) :
    decodeF1R mk (r.word :: rest) = .ok (mk r, rest) := by
  simp [decodeF1R]

theorem decodeF2RR_words (mk : Reg → Reg → Instr) (r q : Reg) (rest : List Int) :
    decodeF2RR mk (r.word :: q.word :: rest) = .ok (mk r q, rest) := by
  simp [decodeF2RR]

theorem decodeF2IR_words (mk : Int → Reg → Instr) (imm : Int) (r : Reg) (rest : List Int) :
    decodeF2IR mk (imm :: r.word :: rest) = .ok (mk imm r, rest) := by
  simp [decodeF2IR]

/-- Each row of R76 is decoded by its format's reader. -/
theorem decode_encode (i : Instr) (rest : List Int) : decode (encode i ++ rest) = .ok (i, rest) := by
  cases i with
  | halt | ret => rfl
  | jmp | out | jal | push | pop => exact decodeF1R_words _ _ _
  | mov | add | sub | mul | idiv | jnz | ld | st => exact decodeF2RR_words _ _ _ _
  | movi | ldlo | stlo => exact decodeF2IR_words _ _ _ _

/-- Settles O1: each format's reader gives back the operands its words stand for. -/
theorem decodeOfEncodeIsIdentity : Obligations.DecodeOfEncodeIsIdentity :=
  fun i rest => ⟨decode_encode i rest, encode_length i⟩

/-! ### From words to an instruction and back -/

/-- The row of R76 for an opcode word: what it decodes to, by its format. -/
def DecodeRow (tag : Int) : Format → Prop
  | .f0 => ∃ i, encode i = [tag] ∧ ∀ ws, decode (tag :: ws) = .ok (i, ws)
  | .f1r => ∃ mk : Reg → Instr, (∀ r, encode (mk r) = [tag, r.word]) ∧ ∀ ws, decode (tag :: ws) = decodeF1R mk ws
  | .f2rr => ∃ mk : Reg → Reg → Instr, (∀ r q, encode (mk r q) = [tag, r.word, q.word]) ∧
      ∀ ws, decode (tag :: ws) = decodeF2RR mk ws
  | .f2ir => ∃ mk : Int → Reg → Instr, (∀ imm r, encode (mk imm r) = [tag, imm, r.word]) ∧
      ∀ ws, decode (tag :: ws) = decodeF2IR mk ws

theorem decodeRow_of_formatOfTag {tag : Int} {f : Format} (h : formatOfTag tag = some f) : DecodeRow tag f := by
  have hlegal : ¬ (tag < 1 ∨ 18 < tag) := by simp [← formatOfTag_eq_none_iff, h]
  obtain ⟨hlow, hhigh⟩ : 1 ≤ tag ∧ tag ≤ 18 := by omega
  interval_cases tag <;> obtain rfl := Option.some.inj h
  · exact ⟨.movi, fun _ _ => rfl, fun _ => rfl⟩
  · exact ⟨.mov, fun _ _ => rfl, fun _ => rfl⟩
  · exact ⟨.add, fun _ _ => rfl, fun _ => rfl⟩
  · exact ⟨.sub, fun _ _ => rfl, fun _ => rfl⟩
  · exact ⟨.mul, fun _ _ => rfl, fun _ => rfl⟩
  · exact ⟨.idiv, fun _ _ => rfl, fun _ => rfl⟩
  · exact ⟨.jmp, fun _ => rfl, fun _ => rfl⟩
  · exact ⟨.jnz, fun _ _ => rfl, fun _ => rfl⟩
  · exact ⟨.out, fun _ => rfl, fun _ => rfl⟩
  · exact ⟨.halt, rfl, fun _ => rfl⟩
  · exact ⟨.ld, fun _ _ => rfl, fun _ => rfl⟩
  · exact ⟨.st, fun _ _ => rfl, fun _ => rfl⟩
  · exact ⟨.jal, fun _ => rfl, fun _ => rfl⟩
  · exact ⟨.ret, rfl, fun _ => rfl⟩
  · exact ⟨.push, fun _ => rfl, fun _ => rfl⟩
  · exact ⟨.pop, fun _ => rfl, fun _ => rfl⟩
  · exact ⟨.ldlo, fun _ _ => rfl, fun _ => rfl⟩
  · exact ⟨.stlo, fun _ _ => rfl, fun _ => rfl⟩

/-- What decodes begins with the encoding of the instruction read. -/
theorem eq_encode_of_decode {ws rest : List Int} {i : Instr} (h : decode ws = .ok (i, rest)) : ws = encode i ++ rest := by
  cases ws with
  | nil => cases h
  | cons tag ws =>
    cases hf : formatOfTag tag with
    | none => simp [decode_invalidOpcode ((formatOfTag_eq_none_iff tag).mp hf)] at h
    | some f =>
      have hrow := decodeRow_of_formatOfTag hf
      cases f with
      | f0 =>
        obtain ⟨j, henc, hdec⟩ := hrow
        obtain ⟨rfl, rfl⟩ : j = i ∧ ws = rest := by simpa [hdec] using h
        simp [henc]
      | f1r =>
        obtain ⟨mk, henc, hdec⟩ := hrow
        obtain ⟨r, rfl, rfl⟩ := decodeF1R_ok ((hdec ws).symm.trans h)
        simp [henc]
      | f2rr =>
        obtain ⟨mk, henc, hdec⟩ := hrow
        obtain ⟨r, q, rfl, rfl⟩ := decodeF2RR_ok ((hdec ws).symm.trans h)
        simp [henc]
      | f2ir =>
        obtain ⟨mk, henc, hdec⟩ := hrow
        obtain ⟨imm, r, rfl, rfl⟩ := decodeF2IR_ok ((hdec ws).symm.trans h)
        simp [henc]

theorem length_of_operandsAccept {kinds : List OperandKind} {ws : List Int} (h : operandsAccept kinds ws = true) :
    ws.length = kinds.length := by
  induction kinds generalizing ws with
  | nil => cases ws <;> simp_all [operandsAccept]
  | cons kind kinds ih =>
    cases ws with
    | nil => simp [operandsAccept] at h
    | cons w ws =>
      simp only [operandsAccept, Bool.and_eq_true] at h
      simp [ih h.2]

/-- A well-formed word sequence is a legal opcode word and acceptable operand words of its format. -/
theorem wellFormed_cons {tag : Int} {ws : List Int} :
    WellFormed (tag :: ws) = true ↔ ∃ f, formatOfTag tag = some f ∧ operandsAccept f.operands ws = true := by
  rw [WellFormed]
  cases formatOfTag tag <;> simp

theorem decode_of_wellFormed {ws : List Int} (h : WellFormed ws = true) : ∃ i, decode ws = .ok (i, []) := by
  cases ws with
  | nil => simp [WellFormed] at h
  | cons tag ws =>
    obtain ⟨f, hf, hacc⟩ := wellFormed_cons.mp h
    rcases decode_decodesOperands hf ws [] (length_of_operandsAccept hacc) with ⟨-, i, hi, -⟩ | ⟨hrej, -⟩
    · exact ⟨i, by simpa using hi⟩
    · exact nomatch hacc.symm.trans hrej

/-- Settles O2: what decodes begins with an encoding, encodings are well formed, and the operands of a well-formed sequence are all
read. -/
theorem decodesExactlyTheWellFormedWords : Obligations.DecodesExactlyTheWellFormedWords := by
  refine ⟨fun ws rest i => eq_encode_of_decode, fun ws => ⟨decode_of_wellFormed, ?_⟩⟩
  rintro ⟨i, hi⟩
  rw [eq_encode_of_decode hi, List.append_nil]
  exact wellFormed_encode i

/-- Settles O3, by running the decoder on the eight word sequences. -/
theorem specWordsDecode : Obligations.SpecWordsDecode := by
  unfold Obligations.SpecWordsDecode
  decide

end Sys2Proof
end

section
/-! PROOF. Fetch and decode at IP (40_step.md sections 2, 3 and 5): the words of an instruction that stands in memory are the ones
decoded, and the decoder over the fetched words is the loop of R99. -/

namespace Sys2Proof.Machine

/-! ### The words at IP -/

/-- Words that stand in memory from `a` on, all at addresses the decoder accepts, begin the window fetched there. -/
theorem fetchWindow_of_words {c : Config} {m : Memory} {ws : List Int} {a : Int} {n : Nat} (hlen : ws.length ≤ n)
    (h : ∀ (k : Nat) (hk : k < ws.length), inRange c (a + k) = true ∧ m.read (addrOf (a + k)) = ws[k]) :
    ∃ rest, fetchWindow c m a n = ws ++ rest := by
  induction ws generalizing a n with
  | nil => exact ⟨_, rfl⟩
  | cons w ws ih =>
    obtain ⟨n, rfl⟩ : ∃ k, n = k + 1 := Nat.exists_eq_succ_of_ne_zero (by simp at hlen; omega)
    obtain ⟨hin, hread⟩ := h 0 (Nat.succ_pos _)
    rw [Nat.cast_zero, add_zero] at hin hread
    have htail : ∀ (k : Nat) (hk : k < ws.length),
        inRange c (a + 1 + k) = true ∧ m.read (addrOf (a + 1 + k)) = ws[k] := by
      intro k hk
      have := h (k + 1) (by simpa using hk)
      rwa [Nat.cast_succ, add_comm (k : Int) 1, ← add_assoc, List.getElem_cons_succ] at this
    obtain ⟨rest, hrest⟩ := ih (by simpa using hlen) htail
    exact ⟨rest, by rw [fetchWindow, if_pos hin, hread, hrest]; rfl⟩

theorem format_length_le (f : Format) : f.length ≤ 3 := by cases f <;> decide

/-- Settles O4: a free step is a run of the engine, and the window at IP begins with the words that stand there. -/
theorem stepRunsTheDecodedInstruction : Obligations.StepRunsTheDecodedInstruction := by
  constructor
  · intro s i rest hfree hdec
    rw [step_of_runsFreely hfree, runEngine_of_decode_ok hdec]
  · intro s i hwords
    have hlen : (encode i).length ≤ 3 := (encode_length i).trans_le (format_length_le i.format)
    obtain ⟨rest, hrest⟩ := fetchWindow_of_words hlen hwords
    exact ⟨rest, by rw [State.fetched, hrest, decode_encode]⟩

/-- Settles O8: R5's bound on MEM_WORDS leaves room for the longest instruction after the last address. -/
theorem sequentialAdvanceNeverWraps : Obligations.SequentialAdvanceNeverWraps := by
  intro s i hvalid hin
  have hip : (s.advance i.format).ip = s.ip + i.length := reg_setReg_same s Reg.ip _
  obtain ⟨hlow, hhigh⟩ := inRange_iff.mp hin
  obtain ⟨-, hbound, -⟩ := hvalid
  have hlen : i.length ≤ 3 := format_length_le i.format
  refine ⟨hip, ?_⟩
  rw [hip]
  constructor <;> omega

/-! ### The loop of R99

Each operand word is read by the decoder as the loop reads it: the address is checked, and then, for a register, the word. -/

section

variable (s : State) (k n : Nat) (kinds : List OperandKind)

/-- The words from offset `k` on, of `n` at most. -/
def State.windowAt : List Int := fetchWindow s.cfg s.mem (s.ip + k) n

theorem windowAt_cons (h : inRange s.cfg (s.ip + k) = true) :
    s.windowAt k (n + 1) = s.mem.read (addrOf (s.ip + k)) :: s.windowAt (k + 1) n := by
  rw [State.windowAt, fetchWindow, if_pos h, State.windowAt, Nat.cast_succ, add_assoc]

theorem windowAt_nil (h : ¬ inRange s.cfg (s.ip + k) = true) : s.windowAt k (n + 1) = [] := if_neg h

theorem specOperands_outOfRange (kind : OperandKind) (h : ¬ inRange s.cfg (s.ip + k) = true) :
    specOperands s k (kind :: kinds) = .error (fetchFault s.ip (.missing k)) :=
  if_pos (mt inRange_iff.mpr h)

theorem specOperands_rejected (hin : inRange s.cfg (s.ip + k) = true)
    (hbad : ¬ (0 ≤ s.mem.read (addrOf (s.ip + k)) ∧ s.mem.read (addrOf (s.ip + k)) < 32)) :
    specOperands s k (.reg :: kinds) = .error (fetchFault s.ip (.badRegister k (s.mem.read (addrOf (s.ip + k))))) := by
  simp only [specOperands]
  rw [if_neg (not_not_intro (inRange_iff.mp hin)), if_pos ⟨trivial, hbad⟩]
  rfl

theorem specOperands_accepted {kind : OperandKind} (hin : inRange s.cfg (s.ip + k) = true)
    (hacc : kind.accepts (s.mem.read (addrOf (s.ip + k))) = true) :
    specOperands s k (kind :: kinds) = (specOperands s (k + 1) kinds).map (s.mem.read (addrOf (s.ip + k)) :: ·) := by
  have hword : ¬ (kind = .reg ∧ ¬ (0 ≤ s.mem.read (addrOf (s.ip + k)) ∧ s.mem.read (addrOf (s.ip + k)) < 32)) := by
    rintro ⟨rfl, hbad⟩
    exact hbad ((Laws.Decode.reg_accepts_iff _).mp hacc)
  simp only [specOperands]
  rw [if_neg (not_not_intro (inRange_iff.mp hin)), if_neg hword]
  cases specOperands s (k + 1) kinds <;> rfl

/-- The loop at a register operand. -/
theorem specOperands_reg :
    (∃ e, readReg k (s.windowAt k (n + 1)) = .error e ∧ specOperands s k (.reg :: kinds) = .error (fetchFault s.ip e)) ∨
    ∃ r : Reg, readReg k (s.windowAt k (n + 1)) = .ok (r, s.windowAt (k + 1) n) ∧
      specOperands s k (.reg :: kinds) = (specOperands s (k + 1) kinds).map (r.word :: ·) := by
  by_cases hin : inRange s.cfg (s.ip + k) = true
  · rw [windowAt_cons s k n hin]
    by_cases hw : 0 ≤ s.mem.read (addrOf (s.ip + k)) ∧ s.mem.read (addrOf (s.ip + k)) < 32
    · have hacc := specOperands_accepted s k kinds hin ((Laws.Decode.reg_accepts_iff _).mpr hw)
      obtain ⟨r, hr⟩ := Reg.exists_word hw
      rw [hr] at hacc ⊢
      exact .inr ⟨r, readReg_word k r _, hacc⟩
    · exact .inl ⟨_, readReg_badRegister hw k _, specOperands_rejected s k kinds hin hw⟩
  · exact .inl ⟨.missing k, by rw [windowAt_nil s k n hin]; rfl, specOperands_outOfRange s k kinds .reg hin⟩

/-- The loop at an immediate operand. -/
theorem specOperands_imm :
    (∃ e, readImm k (s.windowAt k (n + 1)) = .error e ∧ specOperands s k (.imm :: kinds) = .error (fetchFault s.ip e)) ∨
    ∃ w, readImm k (s.windowAt k (n + 1)) = .ok (w, s.windowAt (k + 1) n) ∧
      specOperands s k (.imm :: kinds) = (specOperands s (k + 1) kinds).map (w :: ·) := by
  by_cases hin : inRange s.cfg (s.ip + k) = true
  · rw [windowAt_cons s k n hin]
    exact .inr ⟨_, readImm_word k _ _, specOperands_accepted s k kinds hin (OperandKind.imm_accepts _)⟩
  · exact .inl ⟨.missing k, by rw [windowAt_nil s k n hin]; rfl, specOperands_outOfRange s k kinds .imm hin⟩

end

/-- The decoder, after the opcode word `tag` at IP, does what the loop does for operands of those kinds: the same first fault, or
the same words. -/
def FollowsLoop (s : State) (tag : Int) (kinds : List OperandKind) : Prop :=
  (∃ e, decode (tag :: s.windowAt 1 2) = .error e ∧ specOperands s 1 kinds = .error (fetchFault s.ip e)) ∨
  ∃ i rest ws, decode (tag :: s.windowAt 1 2) = .ok (i, rest) ∧ specOperands s 1 kinds = .ok ws ∧ encode i = tag :: ws

section

variable (s : State) {tag : Int}

theorem followsLoop_f1r (h : DecodeRow tag .f1r) : FollowsLoop s tag Format.f1r.operands := by
  obtain ⟨mk, henc, hdec⟩ := h
  rcases specOperands_reg s 1 1 [] with ⟨e, hread, hspec⟩ | ⟨r, hread, hspec⟩
  · exact .inl ⟨e, by simp only [hdec, decodeF1R, hread], hspec⟩
  · exact .inr ⟨mk r, _, [r.word], by simp only [hdec, decodeF1R, hread]; rfl, hspec, henc r⟩

theorem followsLoop_f2rr (h : DecodeRow tag .f2rr) : FollowsLoop s tag Format.f2rr.operands := by
  obtain ⟨mk, henc, hdec⟩ := h
  rcases specOperands_reg s 1 1 [.reg] with ⟨e, hread, hspec⟩ | ⟨r, hread, hspec⟩
  · exact .inl ⟨e, by simp only [hdec, decodeF2RR, hread], hspec⟩
  · rcases specOperands_reg s 2 0 [] with ⟨e, hread', hspec'⟩ | ⟨q, hread', hspec'⟩ <;> rw [hspec'] at hspec
    · exact .inl ⟨e, by simp only [hdec, decodeF2RR, hread, hread'], hspec⟩
    · exact .inr ⟨mk r q, _, [r.word, q.word], by simp only [hdec, decodeF2RR, hread, hread']; rfl, hspec, henc r q⟩

theorem followsLoop_f2ir (h : DecodeRow tag .f2ir) : FollowsLoop s tag Format.f2ir.operands := by
  obtain ⟨mk, henc, hdec⟩ := h
  rcases specOperands_imm s 1 1 [.reg] with ⟨e, hread, hspec⟩ | ⟨w, hread, hspec⟩
  · exact .inl ⟨e, by simp only [hdec, decodeF2IR, hread], hspec⟩
  · rcases specOperands_reg s 2 0 [] with ⟨e, hread', hspec'⟩ | ⟨q, hread', hspec'⟩ <;> rw [hspec'] at hspec
    · exact .inl ⟨e, by simp only [hdec, decodeF2IR, hread, hread'], hspec⟩
    · exact .inr ⟨mk w q, _, [w, q.word], by simp only [hdec, decodeF2IR, hread, hread']; rfl, hspec, henc w q⟩

theorem followsLoop_of_formatOfTag {f : Format} (h : formatOfTag tag = some f) : FollowsLoop s tag f.operands := by
  have hrow := decodeRow_of_formatOfTag h
  cases f with
  | f0 =>
    obtain ⟨i, henc, hdec⟩ := hrow
    exact .inr ⟨i, _, [], hdec _, rfl, henc⟩
  | f1r => exact followsLoop_f1r s hrow
  | f2rr => exact followsLoop_f2rr s hrow
  | f2ir => exact followsLoop_f2ir s hrow

theorem specFetch_outOfRange (hout : ¬ inRange s.cfg s.ip = true) : specFetch s = .error (.memOutOfRange s.ip .fetch) :=
  if_pos (mt inRange_iff.mpr hout)

theorem specFetch_invalidOpcode (hin : inRange s.cfg s.ip = true) (htag : s.memRead s.ip < 1 ∨ 18 < s.memRead s.ip) :
    specFetch s = .error (.invalidOpcode (s.memRead s.ip) s.ip) :=
  (if_neg (not_not_intro (inRange_iff.mp hin))).trans (if_pos htag)

theorem specFetch_of_formatOfTag {f : Format} (hin : inRange s.cfg s.ip = true) (hf : formatOfTag (s.memRead s.ip) = some f) :
    specFetch s = (specOperands s 1 f.operands).map (s.memRead s.ip :: ·) := by
  have htag : ¬ (s.memRead s.ip < 1 ∨ 18 < s.memRead s.ip) := by simp [← formatOfTag_eq_none_iff, hf]
  refine (if_neg (not_not_intro (inRange_iff.mp hin))).trans ((if_neg htag).trans ?_)
  rw [State.memRead] at hf
  simp only [hf]
  cases specOperands s 1 f.operands <;> rfl

end

/-- The decoder over the fetched words and the loop of R99 meet the same first fault or yield the same words. -/
theorem decode_fetched_followsSpec (s : State) :
    (∃ e, decode s.fetched = .error e ∧ specFetch s = .error (fetchFault s.ip e)) ∨
    ∃ i rest, decode s.fetched = .ok (i, rest) ∧ specFetch s = .ok (encode i) := by
  by_cases hin : inRange s.cfg s.ip = true
  · have hwords : s.fetched = s.memRead s.ip :: s.windowAt 1 2 := fetched_cons hin
    rw [hwords]
    cases hf : formatOfTag (s.memRead s.ip) with
    | none =>
      have htag := (formatOfTag_eq_none_iff _).mp hf
      exact .inl ⟨_, decode_invalidOpcode htag _, specFetch_invalidOpcode s hin htag⟩
    | some f =>
      rw [specFetch_of_formatOfTag s hin hf]
      rcases followsLoop_of_formatOfTag s hf with ⟨e, hdec, hspec⟩ | ⟨i, rest, ws, hdec, hspec, henc⟩ <;> rw [hspec]
      · exact .inl ⟨e, hdec, rfl⟩
      · exact .inr ⟨i, rest, hdec, henc ▸ rfl⟩
  · refine .inl ⟨.missing 0, by rw [fetched_nil hin, decode_nil], ?_⟩
    rw [fetchFault_missing_zero, specFetch_outOfRange s hin]

/-- Settles O5: a run of the engine takes the decoder's fault or runs what it decodes, and the decoder does what the loop
does. -/
theorem fetchFollowsTheSpecLoop : Obligations.FetchFollowsTheSpecLoop := by
  intro s
  rcases decode_fetched_followsSpec s with ⟨e, hdec, hspec⟩ | ⟨i, rest, hdec, hspec⟩ <;> rw [hspec]
  · refine ⟨fun f hf => ?_, nofun⟩
    obtain rfl := Except.error.inj hf
    exact ⟨_, runEngine_of_decode_error hdec, takeFault_spec _ s⟩
  · exact ⟨nofun, fun ws hws => ⟨i, Except.ok.inj hws, runEngine_of_decode_ok hdec⟩⟩

end Sys2Proof.Machine
end

section
/-! PROOF. The ALU (42_alu.md sections 1 and 3): narrowing keeps the low bits, division truncates and wraps in one case only, and
the laws of addition and multiplication. -/

namespace Sys2Proof.Machine

theorem wrap_narrowed {c : Config} (hc : c.Valid) (exact : Int) : Narrowed c exact (wrap c exact) := by
  have hbits := wordBits_ne_of_valid hc
  refine ⟨wrap_isWord hbits exact, ?_, wrap_of_isWord hbits, (BitVec.toInt_ofInt exact).symm⟩
  obtain ⟨k, hk⟩ : ((2 ^ c.wordBits : Nat) : Int) ∣ wrap c exact - exact := Int.dvd_bmod_sub_self
  refine ⟨k, ?_⟩
  push_cast at hk
  linarith

/-- Settles O20: each result is a wrapped one. -/
theorem aluKeepsTheLowBits : Obligations.AluKeepsTheLowBits :=
  fun _ _ _ hc => ⟨wrap_narrowed hc _, wrap_narrowed hc _, wrap_narrowed hc _⟩

/-- Settles O22: the integers obey the laws, and narrowing an operand or not makes no difference to a narrowed result. -/
theorem aluLaws : Obligations.AluLaws := by
  intro c a b d
  simp only [aluAdd, aluSub, aluMul, wrap, Int.bmod_add_bmod, Int.add_bmod_bmod, Int.bmod_mul_bmod, Int.mul_bmod_bmod]
  refine ⟨?_, ?_, ?_, ?_, ?_⟩
  · rw [add_comm]
  · rw [add_assoc]
  · rw [mul_comm]
  · rw [mul_assoc]
  · rw [sub_eq_add_neg]

/-- The words are the integers of magnitude below the least word's, and the least word. -/
theorem isWord_iff_natAbs {c : Config} {v : Int} : c.IsWord v ↔ v.natAbs < 2 ^ (c.wordBits - 1) ∨ v = minWord c := by
  have hp : 0 < 2 ^ (c.wordBits - 1) := Nat.two_pow_pos _
  simp only [Config.IsWord, minWord]
  omega

/-- The one quotient of words that is not a word is that of the least word by -1 (R123). -/
theorem tdiv_isWord {c : Config} {a b : Int} (ha : c.IsWord a) (hb : b ≠ 0) (hne : ¬ (a = minWord c ∧ b = -1)) :
    c.IsWord (Int.tdiv a b) := by
  by_cases hone : b = 1
  · rwa [hone, Int.tdiv_one]
  by_cases hneg : b = -1
  · obtain hsmall | hmin := isWord_iff_natAbs.mp ha
    · rw [hneg, Int.tdiv_neg, Int.tdiv_one]
      exact isWord_iff_natAbs.mpr (.inl (by rwa [Int.natAbs_neg]))
    · exact absurd ⟨hmin, hneg⟩ hne
  · have hp : 0 < 2 ^ (c.wordBits - 1) := Nat.two_pow_pos _
    have hle : a.natAbs ≤ 2 ^ (c.wordBits - 1) := by
      obtain ⟨hlow, hhigh⟩ := ha
      omega
    have hquot : (Int.tdiv a b).natAbs ≤ a.natAbs / 2 := by
      rw [Int.natAbs_tdiv]
      exact Nat.div_le_div_left (by omega) (by decide)
    exact isWord_iff_natAbs.mpr (.inl (by omega))

theorem tdiv_neg_iff (a b : Int) : Int.tdiv a b < 0 ↔ Int.tdiv a b ≠ 0 ∧ (a < 0 ↔ ¬ b < 0) := by
  rcases lt_or_ge a 0 with ha | ha <;> rcases lt_or_ge b 0 with hb' | hb'
  · have := Int.tdiv_nonneg_of_nonpos_of_nonpos ha.le hb'.le
    omega
  · have := Int.tdiv_nonneg (neg_nonneg.mpr ha.le) hb'
    rw [Int.neg_tdiv] at this
    omega
  · have := Int.tdiv_nonpos_of_nonneg_of_nonpos ha hb'.le
    omega
  · have := Int.tdiv_nonneg ha hb'
    omega

/-- Settles O21: but in that one case the exact quotient is a word, which narrowing leaves alone; and there it is the word range's
upper bound, which narrows to the least word. -/
theorem divisionTruncatesTowardZero : Obligations.DivisionTruncatesTowardZero := by
  constructor
  · intro c a b hc ha _ hb hne
    have hexact : aluDiv c a b = Int.tdiv a b := wrap_of_isWord (wordBits_ne_of_valid hc) (tdiv_isWord ha hb hne)
    rw [hexact]
    exact ⟨rfl, Int.natAbs_tdiv a b, tdiv_neg_iff a b⟩
  · intro c hc
    have hbits := wordBits_ne_of_valid hc
    have hmod : -minWord c = minWord c + (2 ^ c.wordBits : Nat) := by
      rw [two_pow_pred hbits, minWord]
      omega
    rw [aluDiv, Int.tdiv_neg, Int.tdiv_one, hmod, wrap, Int.add_bmod_right]
    exact wrap_of_isWord hbits (minWord_isWord c)

/-! ### IDIV -/

theorem exec_idiv (rs rd : Reg) (s : State) :
    exec (.idiv rs rd) s = commit s
      (if readDuring s 3 rs = 0 then .faulted (.divideByZero s.ip)
       else if s.cfg.idivMinNeg1 = .fault ∧ readDuring s 3 rd = minWord s.cfg ∧ readDuring s 3 rs = -1 then
         .faulted (.divideOverflow s.ip)
       else .continued (aluCopy aluDiv rs rd s)) := by
  simp only [← length_f2rr, ← reg_advance]
  rfl

theorem exec_idiv_completes {s : State} {rs rd : Reg} (hdiv : readDuring s 3 rs ≠ 0)
    (hover : ¬ (s.cfg.idivMinNeg1 = .fault ∧ readDuring s 3 rd = minWord s.cfg ∧ readDuring s 3 rs = -1)) :
    exec (.idiv rs rd) s = commit s (.continued (aluCopy aluDiv rs rd s)) := by
  rw [exec_idiv, if_neg hdiv, if_neg hover]

/-- Settles O18: where IDIV completes it leaves the ALU's working copy with `aluDiv`, the wrapped quotient (R123). -/
theorem idivWritesTheTruncatedQuotient : Obligations.IdivWritesTheTruncatedQuotient := by
  intro s rs rd hdiv hover
  refine ⟨rfl, ?_⟩
  rw [exec_idiv_completes hdiv hover]
  exact commit_aluCopy aluDiv rs rd s

/-- The report tells which fault was taken. -/
theorem FaultTaken.unique {f g : ExecFault} {s t : State} (hf : FaultTaken f s t) (hg : FaultTaken g s t) : f = g := by
  obtain ⟨-, -, -, hdiag, -⟩ := hf
  obtain ⟨-, -, -, hdiag', -⟩ := hg
  simpa using hdiag.symm.trans hdiag'

theorem FaultTaken.diagOut_ne {f : ExecFault} {s t : State} (h : FaultTaken f s t) : t.diagOut ≠ s.diagOut := by
  obtain ⟨-, -, -, hdiag, -⟩ := h
  simp [hdiag]

theorem FaultTaken.not_sameSession {f : ExecFault} {s t : State} (h : FaultTaken f s t) : ¬ SameSession s t :=
  fun ⟨_, _, hdiag⟩ => h.diagOut_ne hdiag

theorem exec_idiv_byZero {s : State} {rs : Reg} (rd : Reg) (hdiv : readDuring s 3 rs = 0) :
    ∃ t, exec (.idiv rs rd) s = .next t ∧ FaultTaken (.divideByZero s.ip) s t := by
  rw [exec_idiv, if_pos hdiv]
  exact commit_faulted s _

theorem exec_idiv_overflow {s : State} {rs rd : Reg}
    (hover : s.cfg.idivMinNeg1 = .fault ∧ readDuring s 3 rd = minWord s.cfg ∧ readDuring s 3 rs = -1) :
    ∃ t, exec (.idiv rs rd) s = .next t ∧ FaultTaken (.divideOverflow s.ip) s t := by
  obtain ⟨-, -, hneg⟩ := id hover
  rw [exec_idiv, if_neg (by simp [hneg]), if_pos hover]
  exact commit_faulted s _

/-- Settles O19: of the three branches of IDIV two take a fault, and the third reports none. -/
theorem idivFaults : Obligations.IdivFaults := by
  intro s rs rd
  refine ⟨exec_idiv_byZero rd, fun hcfg hmin hneg => exec_idiv_overflow ⟨hcfg, hmin, hneg⟩, fun t f h hf => ?_⟩
  by_cases hdiv : readDuring s 3 rs = 0
  · obtain ⟨u, hu, hfault⟩ := exec_idiv_byZero rd hdiv
    obtain rfl : u = t := by simpa [hu] using h
    exact .inl ⟨hf.unique hfault, hdiv⟩
  by_cases hover : s.cfg.idivMinNeg1 = .fault ∧ readDuring s 3 rd = minWord s.cfg ∧ readDuring s 3 rs = -1
  · obtain ⟨u, hu, hfault⟩ := exec_idiv_overflow hover
    obtain rfl : u = t := by simpa [hu] using h
    exact .inr ⟨hf.unique hfault, hover⟩
  · obtain ⟨-, u, hu, -, -, -, -, -, hsession⟩ := idivWritesTheTruncatedQuotient s rs rd hdiv hover
    obtain rfl : u = t := by simpa [hu] using h
    exact absurd hsession hf.not_sameSession

end Sys2Proof.Machine
end

section
/-! PROOF. HALT and JAL (43_control.md): the two control transfers with an effect beside the one on IP. -/

namespace Sys2Proof.Machine

/-- Settles O25: HALT is the advance with the run ended, and EXIT_OK is 0 (R5). -/
theorem haltExitsWithZero : Obligations.HaltExitsWithZero := by
  intro s
  exact ⟨rfl, _, exec_halt s, exit_status _ _, reg_setReg_same s Reg.ip _, fun r hr => reg_setReg_other s _ hr,
    sameMemory_refl s, rfl, sameSession_refl s⟩

/-- The target is read after RP is written (R143). -/
theorem exec_jal (ra : Reg) (s : State) :
    exec (.jal ra) s = commit s (.continued (((s.advance .f1r).setReg Reg.rp (s.ip + 2)).setReg Reg.ip
      (if ra = Reg.rp then s.ip + 2 else readDuring s 2 ra))) := by
  have hlink : (s.advance .f1r).ip = s.ip + 2 := reg_setReg_same s Reg.ip _
  rw [← hlink, ← length_f1r, ← reg_advance, ← reg_setReg]
  rfl

/-- Settles O26: JAL is the write of RP, in the advanced working copy, followed by the jump, which leaves RP alone. -/
theorem jalLinksAndJumps : Obligations.JalLinksAndJumps := by
  intro s ra
  rw [exec_jal]
  refine ⟨rfl, _, commit_continued s _, ?_, reg_setReg_same _ _ _, fun r hip hrp => ?_,
    (((onlyRegisters_refl s).advance .f1r).setReg _ _).setReg _ _, targetCheckedAtFetch _⟩
  · rw [reg_setReg_other _ _ (by decide), reg_setReg_same]
  · rw [reg_setReg_other _ _ hip, reg_setReg_other _ _ hrp, reg_advance, readDuring_of_ne_ip s _ hip]

end Sys2Proof.Machine
end

section
/-! PROOF. Memory as data (log 8): canonical memories that read alike are equal, so equal snapshots are equal registers and equal
memory. -/

namespace Sys2Proof.Machine

theorem read_cons_self (a : Nat) (v : Int) (m : Memory) : Memory.read ((a, v) :: m) a = v := if_pos rfl

theorem read_cons_of_ne {a b : Nat} (h : b ≠ a) (v : Int) (m : Memory) : Memory.read ((a, v) :: m) b = m.read b := if_neg h

/-- Below its first address a canonical memory lists nothing. -/
theorem read_of_lt_head {a b : Nat} {v : Int} {m : Memory} (hm : Memory.wf ((a, v) :: m) = true) (h : b < a) :
    Memory.read ((a, v) :: m) b = Memory.unlisted := by
  obtain ⟨-, hbelow, -⟩ := wf_cons.mp hm
  refine read_below fun c hc => ?_
  rcases List.mem_cons.mp hc with rfl | hc
  · exact h
  · exact h.trans (hbelow c hc)

/-- The first address of a canonical memory is the least one at which it does not read as unlisted. -/
theorem head_le_of_read_eq {a b : Nat} {v w : Int} {m n : Memory} (hm : Memory.wf ((a, v) :: m) = true)
    (hn : Memory.wf ((b, w) :: n) = true) (h : Memory.read ((a, v) :: m) a = Memory.read ((b, w) :: n) a) : b ≤ a := by
  by_contra hlt
  rw [read_cons_self, read_of_lt_head hn (by omega)] at h
  exact (wf_cons.mp hm).1 h

/-- Settles O54, cell by cell: equal reads make the first addresses equal, so the first words, and what follows lies above. -/
theorem canonicalMemoriesAreEqual : Obligations.CanonicalMemoriesAreEqual := by
  intro m
  induction m with
  | nil =>
    rintro (- | ⟨⟨b, w⟩, n⟩) - hn hread
    · rfl
    · exact absurd ((hread b).trans (read_cons_self b w n)).symm (wf_cons.mp hn).1
  | cons cell m ih =>
    obtain ⟨a, v⟩ := cell
    rintro (- | ⟨⟨b, w⟩, n⟩) hm hn hread
    · exact absurd ((read_cons_self a v m).symm.trans (hread a)) (wf_cons.mp hm).1
    · obtain rfl : a = b := le_antisymm (head_le_of_read_eq hn hm (hread b).symm) (head_le_of_read_eq hm hn (hread a))
      obtain rfl : v = w := by simpa only [read_cons_self] using hread a
      obtain ⟨-, hbelow, hm⟩ := wf_cons.mp hm
      obtain ⟨-, hbelow', hn⟩ := wf_cons.mp hn
      rw [ih n hm hn fun c => ?_]
      by_cases hc : c = a
      · rw [hc, read_below hbelow, read_below hbelow']
      · simpa only [read_cons_of_ne hc] using hread c

end Sys2Proof.Machine
end

section
/-! PROOF. The engine reads registers, memory and parameters alone (R90): run from two states that agree on these, it does the same
to both. Hence a fault that was taken is raised again (R267). -/

namespace Sys2Proof.Machine

/-- The two states agree on all the engine reads. -/
structure SameInputs (s u : State) : Prop where
  cfg : u.cfg = s.cfg
  regs : u.regs = s.regs
  mem : u.mem = s.mem

/-- The engine, working on a copy in each of two states, has come from `s` to `t` and from `u` to `v` in parallel: the copies agree
on what it reads, it has written the same words to both, and neither has reported anything or ended the run. -/
structure Parallel (s u t v : State) : Prop where
  inputs : SameInputs t v
  dataOut : ∃ words, t.dataOut = s.dataOut ++ words ∧ v.dataOut = u.dataOut ++ words
  diagOut : t.diagOut = s.diagOut ∧ v.diagOut = u.diagOut
  status : t.status = s.status ∧ v.status = u.status

theorem SameInputs.reg {s u : State} (h : SameInputs s u) (r : Reg) : u.reg r = s.reg r := by
  rw [State.reg, State.reg, h.regs]

theorem SameInputs.ip {s u : State} (h : SameInputs s u) : u.ip = s.ip := h.reg Reg.ip

theorem SameInputs.memRead {s u : State} (h : SameInputs s u) (a : Int) : u.memRead a = s.memRead a := by
  rw [State.memRead, State.memRead, h.mem]

theorem SameInputs.fetched {s u : State} (h : SameInputs s u) : u.fetched = s.fetched := by
  rw [State.fetched, State.fetched, h.cfg, h.mem, h.ip]

theorem SameInputs.parallel {s u : State} (h : SameInputs s u) : Parallel s u s u :=
  ⟨h, ⟨[], by simp⟩, ⟨rfl, rfl⟩, rfl, rfl⟩

section

variable {s u t v : State} (h : Parallel s u t v)
include h

theorem Parallel.setReg (r : Reg) (x : Int) : Parallel s u (t.setReg r x) (v.setReg r x) :=
  ⟨⟨h.inputs.cfg, by rw [setReg_regs, setReg_regs, h.inputs.regs], h.inputs.mem⟩, h.dataOut, h.diagOut, h.status⟩

theorem Parallel.advance (f : Format) : Parallel s u (t.advance f) (v.advance f) := by
  rw [State.advance, State.advance, h.inputs.ip]
  exact h.setReg _ _

theorem Parallel.memWrite (a x : Int) : Parallel s u (t.memWrite a x) (v.memWrite a x) :=
  ⟨⟨h.inputs.cfg, h.inputs.regs, by rw [memWrite_mem, memWrite_mem, h.inputs.mem]⟩, h.dataOut, h.diagOut, h.status⟩

theorem Parallel.emitData (x : Int) : Parallel s u (t.emitData x) (v.emitData x) := by
  obtain ⟨words, ht, hv⟩ := h.dataOut
  exact ⟨⟨h.inputs.cfg, h.inputs.regs, h.inputs.mem⟩, ⟨words ++ [x], by simp [ht], by simp [hv]⟩, h.diagOut, h.status⟩

end

/-- The engine's outcomes from `s` and from `u` are of one kind, with parallel working copies or the same fault. -/
inductive ParallelOutcomes (s u : State) : StepOutcome → StepOutcome → Prop
  | continued {t v : State} (h : Parallel s u t v) : ParallelOutcomes s u (.continued t) (.continued v)
  | halted {t v : State} (h : Parallel s u t v) : ParallelOutcomes s u (.halted t) (.halted v)
  | faulted (f : ExecFault) : ParallelOutcomes s u (.faulted f) (.faulted f)

section

variable {s u : State} (h : SameInputs s u)
include h

theorem SameInputs.readDuring (n : Nat) (r : Reg) : readDuring u n r = readDuring s n r := by
  rw [Machine.readDuring, Machine.readDuring, h.ip, h.reg]

/-- One register write after the advance. -/
theorem SameInputs.advance_setReg (f : Format) (r : Reg) (x : Int) :
    ParallelOutcomes s u (.continued ((s.advance f).setReg r x)) (.continued ((u.advance f).setReg r x)) :=
  .continued ((h.parallel.advance f).setReg r x)

theorem SameInputs.aluCopy (op : Config → Int → Int → Int) (rs rd : Reg) :
    ParallelOutcomes s u (.continued (aluCopy op rs rd s)) (.continued (aluCopy op rs rd u)) := by
  rw [aluCopy_eq, aluCopy_eq, h.cfg, h.readDuring, h.readDuring]
  exact h.advance_setReg _ _ _

/-- A data access from the advanced working copies is refused in both or accepted in both. -/
theorem SameInputs.withRead {f : Format} {a : Int} {k k' : Int → StepOutcome}
    (hk : ∀ x, ParallelOutcomes s u (k x) (k' x)) :
    ParallelOutcomes s u (withRead (s.advance f) a k) (withRead (u.advance f) a k') := by
  have hcopy := (h.parallel.advance f).inputs
  by_cases ha : inRange (s.advance f).cfg a = true
  · rw [withRead_inRange k ha, withRead_inRange k' (hcopy.cfg ▸ ha), hcopy.memRead]
    exact hk _
  · rw [withRead_outOfRange k ha, withRead_outOfRange k' (hcopy.cfg ▸ ha)]
    exact .faulted _

theorem SameInputs.withWrite {f : Format} {a x : Int} {k k' : State → StepOutcome}
    (hk : ∀ t v, Parallel s u t v → ParallelOutcomes s u (k t) (k' v)) :
    ParallelOutcomes s u (withWrite (s.advance f) a x k) (withWrite (u.advance f) a x k') := by
  have hcopy := (h.parallel.advance f).inputs
  by_cases ha : inRange (s.advance f).cfg a = true
  · rw [withWrite_inRange k ha, withWrite_inRange k' (hcopy.cfg ▸ ha)]
    exact hk _ _ ((h.parallel.advance f).memWrite a x)
  · rw [withWrite_outOfRange k ha, withWrite_outOfRange k' (hcopy.cfg ▸ ha)]
    exact .faulted _

theorem exec_parallel (i : Instr) :
    ∃ o p, exec i s = commit s o ∧ exec i u = commit u p ∧ ParallelOutcomes s u o p := by
  cases i with
  | movi imm rd => exact ⟨_, _, exec_movi imm rd s, exec_movi imm rd u, h.advance_setReg _ _ _⟩
  | mov rs rd =>
    refine ⟨_, _, exec_mov rs rd s, exec_mov rs rd u, ?_⟩
    rw [h.readDuring]
    exact h.advance_setReg _ _ _
  | add rs rd => exact ⟨_, _, exec_add rs rd s, exec_add rs rd u, h.aluCopy _ _ _⟩
  | sub rs rd => exact ⟨_, _, exec_sub rs rd s, exec_sub rs rd u, h.aluCopy _ _ _⟩
  | mul rs rd => exact ⟨_, _, exec_mul rs rd s, exec_mul rs rd u, h.aluCopy _ _ _⟩
  | idiv rs rd =>
    refine ⟨_, _, exec_idiv rs rd s, exec_idiv rs rd u, ?_⟩
    rw [h.readDuring, h.readDuring, h.cfg, h.ip]
    split
    · exact .faulted _
    · split
      · exact .faulted _
      · exact h.aluCopy _ _ _
  | jmp ra =>
    refine ⟨_, _, exec_jmp ra s, exec_jmp ra u, ?_⟩
    rw [h.readDuring]
    exact .continued (h.parallel.setReg _ _)
  | jnz rs ra =>
    refine ⟨_, _, exec_jnz rs ra s, exec_jnz rs ra u, ?_⟩
    rw [h.readDuring, h.readDuring, h.ip]
    exact .continued (h.parallel.setReg _ _)
  | out rs =>
    refine ⟨_, _, exec_out rs s, exec_out rs u, ?_⟩
    rw [h.readDuring]
    exact .continued ((h.parallel.advance _).emitData _)
  | halt => exact ⟨_, _, rfl, rfl, .halted (h.parallel.advance _)⟩
  | ld ra rd =>
    refine ⟨_, _, exec_ld ra rd s, exec_ld ra rd u, ?_⟩
    rw [h.readDuring]
    exact h.withRead fun x => h.advance_setReg _ _ x
  | st ra rs =>
    refine ⟨_, _, exec_st ra rs s, exec_st ra rs u, ?_⟩
    rw [h.readDuring, h.readDuring]
    exact h.withWrite fun _ _ hcopy => .continued hcopy
  | jal ra =>
    refine ⟨_, _, exec_jal ra s, exec_jal ra u, ?_⟩
    rw [h.readDuring, h.ip]
    exact .continued (((h.parallel.advance _).setReg _ _).setReg _ _)
  | ret =>
    refine ⟨_, _, exec_ret s, exec_ret u, ?_⟩
    rw [h.reg]
    exact .continued (h.parallel.setReg _ _)
  | push rs =>
    refine ⟨_, _, exec_push rs s, exec_push rs u, ?_⟩
    rw [h.readDuring, h.reg]
    exact h.withWrite fun _ _ hcopy => .continued (hcopy.setReg _ _)
  | pop rd =>
    refine ⟨_, _, exec_pop rd s, exec_pop rd u, ?_⟩
    rw [h.cfg, h.reg]
    exact h.withRead fun _ => .continued (((h.parallel.advance _).setReg _ _).setReg _ _)
  | ldlo imm rd =>
    refine ⟨_, _, exec_ldlo imm rd s, exec_ldlo imm rd u, ?_⟩
    rw [h.cfg, h.reg]
    exact h.withRead fun x => h.advance_setReg _ _ x
  | stlo imm rs =>
    refine ⟨_, _, exec_stlo imm rs s, exec_stlo imm rs u, ?_⟩
    rw [h.cfg, h.reg, h.readDuring]
    exact h.withWrite fun _ _ hcopy => .continued hcopy

theorem runEngine_parallel :
    ∃ o p, runEngine s = commit s o ∧ runEngine u = commit u p ∧ ParallelOutcomes s u o p := by
  cases hdec : decode s.fetched with
  | ok read =>
    obtain ⟨i, rest⟩ := read
    rw [runEngine_of_decode_ok hdec, runEngine_of_decode_ok (h.fetched.symm ▸ hdec)]
    exact exec_parallel h i
  | error e =>
    rw [runEngine_of_decode_error hdec, runEngine_of_decode_error (h.fetched.symm ▸ hdec), h.ip]
    exact ⟨_, _, rfl, rfl, .faulted _⟩

end

/-! ### What the session makes of parallel outcomes -/

theorem SameInputs.sameSnapshot {s u : State} (h : SameInputs s u) : SameSnapshot s u :=
  ⟨h.reg, fun a => by rw [h.mem]⟩

/-- Canonical memories that read alike are equal, so the snapshot is all that two states need to share. -/
theorem sameInputs_of_sameSnapshot {s u : State} (hs : s.mem.wf = true) (hu : u.mem.wf = true) (hcfg : u.cfg = s.cfg)
    (h : SameSnapshot s u) : SameInputs s u := by
  obtain ⟨hregs, hmem⟩ := h
  exact ⟨hcfg, regs_ext hregs, canonicalMemoriesAreEqual _ _ hu hs hmem⟩

theorem takeFault_cfg (f : ExecFault) (s : State) : (takeFault f s).cfg = s.cfg := by
  obtain ⟨-, ⟨hcfg, -⟩, -⟩ := takeFault_spec f s
  exact hcfg

theorem takeFault_sameInputs (f : ExecFault) {s u : State} (h : SameInputs s u) :
    SameInputs (takeFault f s) (takeFault f u) :=
  ⟨by rw [takeFault_cfg, takeFault_cfg, h.cfg], by rw [takeFault_regs, takeFault_regs, h.regs],
    by rw [takeFault_mem, takeFault_mem, h.mem]⟩

/-- `t` has been reached from `s`, and `v` from `u`, with the same words and events appended to the channels. -/
def SameOutput (s u t v : State) : Prop :=
  ∃ words events, t.dataOut = s.dataOut ++ words ∧ v.dataOut = u.dataOut ++ words ∧
    t.diagOut = s.diagOut ++ events ∧ v.diagOut = u.diagOut ++ events

theorem Parallel.sameOutput {s u t v : State} (h : Parallel s u t v) : SameOutput s u t v := by
  obtain ⟨words, ht, hv⟩ := h.dataOut
  exact ⟨words, [], ht, hv, by simp [h.diagOut.1], by simp [h.diagOut.2]⟩

theorem takeFault_sameOutput (f : ExecFault) (s u : State) : SameOutput s u (takeFault f s) (takeFault f u) := by
  obtain ⟨-, -, hdata, hdiag, -⟩ := takeFault_spec f s
  obtain ⟨-, -, hdata', hdiag', -⟩ := takeFault_spec f u
  exact ⟨[], [.faultReport f], by simp [hdata], by simp [hdata'], hdiag, hdiag'⟩

theorem takeFault_status_congr (f : ExecFault) {s u : State} (hcfg : u.cfg = s.cfg) (hstatus : u.status = s.status)
    (hdebug : u.debugEnabled = s.debugEnabled) : (takeFault f u).status = (takeFault f s).status := by
  obtain ⟨-, -, -, -, hpause, hexit⟩ := takeFault_spec f s
  obtain ⟨-, -, -, -, hpause', hexit'⟩ := takeFault_spec f u
  cases hd : s.debugEnabled with
  | true => rw [(hpause hd).2, (hpause' (hdebug.trans hd)).2, hstatus]
  | false => rw [(hexit hd).2, (hexit' (hdebug.trans hd)).2, hcfg]

theorem ParallelOutcomes.settled {s u : State} {o p : StepOutcome} (h : SameInputs s u) (hop : ParallelOutcomes s u o p) :
    SameInputs (settle s o) (settle u p) ∧ SameOutput s u (settle s o) (settle u p) ∧
      (u.status = s.status → u.debugEnabled = s.debugEnabled → (settle u p).status = (settle s o).status) := by
  cases hop with
  | continued hcopy =>
    exact ⟨hcopy.inputs, hcopy.sameOutput, fun hstatus _ => hcopy.status.2.trans (hstatus.trans hcopy.status.1.symm)⟩
  | halted hcopy =>
    exact ⟨⟨hcopy.inputs.cfg, hcopy.inputs.regs, hcopy.inputs.mem⟩, hcopy.sameOutput, fun _ _ => rfl⟩
  | faulted f => exact ⟨takeFault_sameInputs f h, takeFault_sameOutput f s u, takeFault_status_congr f h.cfg⟩

/-- Settles O12: with canonical memories the two states agree on what the engine reads, its outcomes are parallel, and the session
makes the same of them. -/
theorem engineDependsOnSnapshotOnly : Obligations.EngineDependsOnSnapshotOnly := by
  intro s u t hs hu hcfg hsame ht
  have h := sameInputs_of_sameSnapshot hs hu hcfg hsame
  obtain ⟨o, p, ho, hp, hop⟩ := runEngine_parallel h
  obtain rfl := commit_next.mp (ho.symm.trans ht)
  obtain ⟨hinputs, ⟨words, events, hdata, hdata', hdiag, hdiag'⟩, hstatus⟩ := hop.settled h
  exact ⟨_, hp, hinputs.sameSnapshot, words, events, hdata, hdata', hdiag, hdiag', hstatus⟩

/-! ### A fault is raised again -/

/-- A fault the engine took is the state before the run with that fault taken in it. -/
theorem eq_takeFault_of_runEngine {s t : State} {f : ExecFault} (h : runEngine s = .next t) (hf : FaultTaken f s t) :
    t = takeFault f s := by
  obtain ⟨-, -, -, hdiag, -⟩ := id hf
  obtain ⟨g, rfl⟩ := runEngine_of_faultReport h hdiag
  rw [hf.unique (takeFault_spec g s)]

theorem sameInputs_takeFault (f : ExecFault) (s : State) : SameInputs s (takeFault f s) :=
  ⟨takeFault_cfg f s, takeFault_regs f s, takeFault_mem f s⟩

/-- Of two parallel outcomes the first of which is a fault taken, the second is the same fault. -/
theorem ParallelOutcomes.eq_faulted {s u : State} {o p : StepOutcome} {f : ExecFault} (hop : ParallelOutcomes s u o p)
    (h : FaultTaken f s (settle s o)) : p = .faulted f := by
  cases hop with
  | continued hcopy => exact absurd hcopy.diagOut.1 h.diagOut_ne
  | halted hcopy => exact absurd hcopy.diagOut.1 h.diagOut_ne
  | faulted g =>
    rw [h.unique (takeFault_spec g s)]

/-- Settles O11: a fault taken leaves all that the engine reads as it was, so the next run has a parallel outcome. -/
theorem faultIsRaisedAgain : Obligations.FaultIsRaisedAgain := by
  intro s t f ht hf
  have hinputs : SameInputs s t := eq_takeFault_of_runEngine ht hf ▸ sameInputs_takeFault f s
  obtain ⟨o, p, ho, hp, hop⟩ := runEngine_parallel hinputs
  obtain rfl := commit_next.mp (ho.symm.trans ht)
  rw [hp, hop.eq_faulted hf]
  exact commit_faulted _ f

end Sys2Proof.Machine
end

section
/-! PROOF. What an instruction may do, over all 18 of them: the faults it raises of its own (R261), what it sends to the channels
(R9), and its frame. -/

namespace Sys2Proof.Machine

/-! ### Faults and program output -/

/-- The outcome of `i` in `s` is a working copy that reports nothing and, unless `i` is an OUT, sends nothing to `data_out`; or a
fault that R261 lists for `i`. -/
def KeepsChannels (i : Instr) (s : State) (o : StepOutcome) : Prop :=
  (∃ t, (o = .continued t ∨ o = .halted t) ∧ t.diagOut = s.diagOut ∧ ((∀ rs, i ≠ .out rs) → t.dataOut = s.dataOut)) ∨
  ∃ f, o = .faulted f ∧ mayRaise s i f

section

variable {i : Instr} {s t : State}

theorem keepsChannels_continued (hdiag : t.diagOut = s.diagOut) (hdata : t.dataOut = s.dataOut) :
    KeepsChannels i s (.continued t) :=
  .inl ⟨t, .inl rfl, hdiag, fun _ => hdata⟩

theorem keepsChannels_withRead {w : State} {a : Int} {k : Int → StepOutcome} (hf : mayRaise s i (.memOutOfRange a .read))
    (hk : ∀ v, KeepsChannels i s (k v)) : KeepsChannels i s (withRead w a k) := by
  by_cases ha : inRange w.cfg a = true
  · exact withRead_inRange k ha ▸ hk _
  · exact withRead_outOfRange k ha ▸ .inr ⟨_, rfl, hf⟩

theorem keepsChannels_withWrite {w : State} {a v : Int} {k : State → StepOutcome}
    (hf : mayRaise s i (.memOutOfRange a .write)) (hk : KeepsChannels i s (k (w.memWrite a v))) :
    KeepsChannels i s (withWrite w a v k) := by
  by_cases ha : inRange w.cfg a = true
  · exact withWrite_inRange k ha ▸ hk
  · exact withWrite_outOfRange k ha ▸ .inr ⟨_, rfl, hf⟩

end

theorem exec_keepsChannels (i : Instr) (s : State) : ∃ o, exec i s = commit s o ∧ KeepsChannels i s o := by
  cases i with
  | movi | mov | add | sub | mul | jmp | jal | ret => exact ⟨_, rfl, keepsChannels_continued rfl rfl⟩
  | jnz rs ra => exact ⟨_, exec_jnz rs ra s, keepsChannels_continued rfl rfl⟩
  | out rs => exact ⟨_, rfl, .inl ⟨_, .inl rfl, rfl, fun hout => absurd rfl (hout rs)⟩⟩
  | halt => exact ⟨_, rfl, .inl ⟨_, .inr rfl, rfl, fun _ => rfl⟩⟩
  | idiv rs rd =>
    refine ⟨_, exec_idiv rs rd s, ?_⟩
    split
    · exact .inr ⟨_, rfl, .inl rfl⟩
    · split
      · rename_i hover
        exact .inr ⟨_, rfl, .inr ⟨rfl, hover.1⟩⟩
      · exact keepsChannels_continued rfl rfl
  | ld | pop | ldlo => exact ⟨_, rfl, keepsChannels_withRead ⟨_, rfl⟩ fun _ => keepsChannels_continued rfl rfl⟩
  | st | push | stlo => exact ⟨_, rfl, keepsChannels_withWrite ⟨_, rfl⟩ (keepsChannels_continued rfl rfl)⟩

/-- Settles O10: a working copy has reported nothing, so the fault taken is the outcome's, which is one of those listed. -/
theorem instructionsRaiseOnlyTheirFaults : Obligations.InstructionsRaiseOnlyTheirFaults := by
  intro i s t f h hf
  obtain ⟨o, ho, hkeeps⟩ := exec_keepsChannels i s
  obtain rfl := commit_next.mp (ho.symm.trans h)
  rcases hkeeps with ⟨w, rfl | rfl, hdiag, -⟩ | ⟨g, rfl, hg⟩
  · exact absurd hdiag hf.diagOut_ne
  · exact absurd hdiag hf.diagOut_ne
  · exact hf.unique (takeFault_spec g s) ▸ hg

theorem exec_dataOut {i : Instr} {s t : State} (hi : ∀ rs, i ≠ .out rs) (h : exec i s = .next t) :
    t.dataOut = s.dataOut := by
  obtain ⟨o, ho, hkeeps⟩ := exec_keepsChannels i s
  obtain rfl := commit_next.mp (ho.symm.trans h)
  rcases hkeeps with ⟨w, rfl | rfl, -, hdata⟩ | ⟨g, rfl, -⟩
  · exact hdata hi
  · exact hdata hi
  · obtain ⟨-, -, hdata, -⟩ := takeFault_spec g s
    exact hdata

/-- A run of the engine writes `data_out` only where it decodes an OUT (R160). -/
theorem runEngine_dataOut {s t : State} (h : runEngine s = .next t) : t.dataOut = s.dataOut ∨
    ∃ rs rest, decode s.fetched = .ok (.out rs, rest) ∧ t.dataOut = s.dataOut ++ [readDuring s 2 rs] := by
  rcases runEngine_cases s with ⟨i, rest, hdec, hrun⟩ | ⟨e, -, hrun⟩ <;> rw [hrun] at h
  · by_cases hi : ∃ rs, i = .out rs
    · obtain ⟨rs, rfl⟩ := hi
      rw [exec_out, commit_next] at h
      exact .inr ⟨rs, rest, hdec, h ▸ rfl⟩
    · exact .inl (exec_dataOut (not_exists.mp hi) h)
  · injection h with h
    obtain ⟨-, -, hdata, -⟩ := takeFault_spec (fetchFault s.ip e) s
    exact .inl (h ▸ hdata)

/-- What a load request leaves alone, whatever the answer. -/
theorem requestLoader_keeps (s : State) :
    (requestLoader s).cfg = s.cfg ∧ (requestLoader s).dataOut = s.dataOut ∧ (requestLoader s).cmdIn = s.cmdIn ∧
      (requestLoader s).debugEnabled = s.debugEnabled := by
  rcases requestLoader_cases s with ⟨-, h⟩ | ⟨r, more, -, ⟨image, -, -, h⟩ | ⟨k, h⟩⟩ <;> rw [h] <;>
    exact ⟨rfl, rfl, rfl, rfl⟩

theorem Prepared.sameInputs {s u : State} (h : Prepared s u) : SameInputs s u := ⟨h.cfg, h.regs, h.mem⟩

/-- Settles O29: of all that a step can do only a run of the engine writes `data_out`, and it runs from a state with the step's own
registers and memory. -/
theorem onlyOutWritesProgramOutput : Obligations.OnlyOutWritesProgramOutput := by
  intro s t h
  obtain ⟨u, hu, ht⟩ := step_effects h
  have hinputs := hu.sameInputs
  rw [← hu.dataOut, ← hinputs.fetched]
  rcases ht with ht | rfl | rfl | ⟨e, rfl, -⟩ | ⟨b, rfl, -⟩ | rfl | ⟨rfl, -⟩
  · rcases runEngine_dataOut ht with hdata | ⟨rs, rest, hdec, hdata⟩
    · exact .inl hdata
    · exact .inr ⟨rs, rest, hdec, by rw [hdata, hinputs.readDuring]⟩
  · obtain ⟨-, hdata, -⟩ := requestLoader_keeps u
    exact .inl hdata
  all_goals exact .inl rfl

/-! ### The frame -/

/-- What `i`, run in `s`, leaves alone in `t`: the registers but IP and its destinations, the memory words but the one stored to,
the setting, and `data_out` unless `i` is an OUT. -/
def Framed (i : Instr) (s t : State) : Prop :=
  (∀ r, r ≠ Reg.ip → r ∉ destinations i → t.reg r = s.reg r) ∧
  (∀ b, (∀ a, storeAddress s i = some a → b ≠ addrOf a) → t.mem.read b = s.mem.read b) ∧
  SameSetting s t ∧ ((∀ rs, i ≠ .out rs) → t.dataOut = s.dataOut)

section

variable {i : Instr} {s : State} {o : Host.Outcome State Fault Refusal}

theorem framed_of_onlyRegisters {t : State} (hregs : ∀ r, r ≠ Reg.ip → r ∉ destinations i → t.reg r = s.reg r)
    (h : OnlyRegisters s t) : Framed i s t := by
  obtain ⟨hmem, hdata, -, hset, -⟩ := h
  exact ⟨hregs, fun b _ => hmem b, hset, fun _ => hdata⟩

theorem framed_of_store {t : State} {a : Int} (haddr : storeAddress s i = some a)
    (hregs : ∀ r, r ≠ Reg.ip → r ∉ destinations i → t.reg r = s.reg r) (h : OnlyRegistersAndWord (addrOf a) s t) :
    Framed i s t := by
  obtain ⟨hmem, hdata, -, hset, -⟩ := h
  exact ⟨hregs, fun b hb => hmem b (hb a haddr), hset, fun _ => hdata⟩

/-- A fault leaves the whole snapshot alone. -/
theorem exists_framed_of_fault {f : ExecFault} (h : ∃ t, o = .next t ∧ FaultTaken f s t) :
    ∃ t, o = .next t ∧ Framed i s t := by
  obtain ⟨t, ht, ⟨hregs, hmem⟩, hset, hdata, -⟩ := h
  exact ⟨t, ht, fun r _ _ => hregs r, fun b _ => hmem b, hset, fun _ => hdata⟩

/-- The instructions whose effect is the write of one register. -/
theorem exists_framed_of_write {rd : Reg} {v : Int} {n : Nat} (hdest : destinations i = [rd])
    (h : ∃ t, o = .next t ∧ t.reg rd = v ∧ (∀ r, r ≠ rd → t.reg r = readDuring s n r) ∧ OnlyRegisters s t) :
    ∃ t, o = .next t ∧ Framed i s t := by
  obtain ⟨t, ht, -, hregs, honly⟩ := h
  refine ⟨t, ht, framed_of_onlyRegisters (fun r hip hr => ?_) honly⟩
  rw [hdest, List.mem_singleton] at hr
  rw [hregs r hr, readDuring_of_ne_ip s n hip]

/-- The loads, in memory and outside it. -/
theorem exists_framed_of_load {rd : Reg} {v a : Int} {n : Nat} {f : ExecFault} (hdest : destinations i = [rd])
    (h : (0 ≤ a ∧ a < s.cfg.memWords →
        ∃ t, o = .next t ∧ t.reg rd = v ∧ (∀ r, r ≠ rd → t.reg r = readDuring s n r) ∧ OnlyRegisters s t) ∧
      (¬ (0 ≤ a ∧ a < s.cfg.memWords) → ∃ t, o = .next t ∧ FaultTaken f s t)) :
    ∃ t, o = .next t ∧ Framed i s t := by
  obtain ⟨hload, hfault⟩ := h
  by_cases ha : 0 ≤ a ∧ a < s.cfg.memWords
  · exact exists_framed_of_write hdest (hload ha)
  · exact exists_framed_of_fault (hfault ha)

/-- The stores that write no register, in memory and outside it. -/
theorem exists_framed_of_store {v a : Int} {n : Nat} {f : ExecFault} (haddr : storeAddress s i = some a)
    (h : (0 ≤ a ∧ a < s.cfg.memWords →
        ∃ t, o = .next t ∧ t.mem.read (addrOf a) = v ∧ (∀ r, t.reg r = readDuring s n r) ∧
          OnlyRegistersAndWord (addrOf a) s t) ∧
      (¬ (0 ≤ a ∧ a < s.cfg.memWords) → ∃ t, o = .next t ∧ FaultTaken f s t)) :
    ∃ t, o = .next t ∧ Framed i s t := by
  obtain ⟨hstore, hfault⟩ := h
  by_cases ha : 0 ≤ a ∧ a < s.cfg.memWords
  · obtain ⟨t, ht, -, hregs, hword⟩ := hstore ha
    refine ⟨t, ht, framed_of_store haddr (fun r hip _ => ?_) hword⟩
    rw [hregs r, readDuring_of_ne_ip s n hip]
  · exact exists_framed_of_fault (hfault ha)

end

/-- The rules of the instructions, read as frames. -/
theorem exec_framed (i : Instr) {s : State} (hwf : s.mem.wf = true) : ∃ t, exec i s = .next t ∧ Framed i s t := by
  cases i with
  | movi imm rd => exact exists_framed_of_write rfl (moviWritesItsImmediate s imm rd).2
  | mov rs rd => exact exists_framed_of_write rfl (movCopiesTheSource s rs rd).2
  | add rs rd => exact exists_framed_of_write rfl (addWritesTheWrappedSum s rs rd).2
  | sub rs rd => exact exists_framed_of_write rfl (subWritesTheWrappedDifference s rs rd).2
  | mul rs rd => exact exists_framed_of_write rfl (mulWritesTheWrappedProduct s rs rd).2
  | idiv rs rd =>
    by_cases hdiv : readDuring s 3 rs = 0
    · exact exists_framed_of_fault (exec_idiv_byZero rd hdiv)
    by_cases hover : s.cfg.idivMinNeg1 = .fault ∧ readDuring s 3 rd = minWord s.cfg ∧ readDuring s 3 rs = -1
    · exact exists_framed_of_fault (exec_idiv_overflow hover)
    · exact exists_framed_of_write rfl (idivWritesTheTruncatedQuotient s rs rd hdiv hover).2
  | jmp ra =>
    obtain ⟨-, t, ht, -, hregs, honly, -⟩ := jmpGoesToTheRegisterValue s ra
    exact ⟨t, ht, framed_of_onlyRegisters (fun r hip _ => hregs r hip) honly⟩
  | jnz rs ra =>
    obtain ⟨-, t, ht, -, -, hregs, honly, -⟩ := jnzJumpsOnNonZero s rs ra
    exact ⟨t, ht, framed_of_onlyRegisters (fun r hip _ => hregs r hip) honly⟩
  | out rs =>
    obtain ⟨-, t, ht, -, hregs, hmem, -, hset, -⟩ := outAppendsOneWord s rs
    refine ⟨t, ht, fun r hip _ => ?_, fun b _ => hmem b, hset, fun hout => absurd rfl (hout rs)⟩
    rw [hregs r, readDuring_of_ne_ip s 2 hip]
  | halt =>
    obtain ⟨-, t, ht, -, -, hregs, hmem, hdata, hset, -⟩ := haltExitsWithZero s
    exact ⟨t, ht, fun r hip _ => hregs r hip, fun b _ => hmem b, hset, fun _ => hdata⟩
  | ld ra rd => exact exists_framed_of_load rfl (ldLoadsOrFaults s ra rd _ rfl).2
  | st ra rs =>
    exact exists_framed_of_store (congrArg some (eaReg_advance s .f2rr ra)) (stStoresOrFaults s ra rs _ hwf rfl).2
  | jal ra =>
    obtain ⟨-, t, ht, -, -, hregs, honly, -⟩ := jalLinksAndJumps s ra
    exact ⟨t, ht, framed_of_onlyRegisters (fun r hip hrp => hregs r hip (List.mem_singleton.not.mp hrp)) honly⟩
  | ret =>
    obtain ⟨-, t, ht, -, hregs, honly, -⟩ := retGoesToTheReturnPointer s
    exact ⟨t, ht, framed_of_onlyRegisters (fun r hip _ => hregs r hip) honly⟩
  | push rs =>
    obtain ⟨-, hpush, hfault⟩ := pushStoresOrFaults s rs _ hwf rfl
    by_cases ha : 0 ≤ s.reg Reg.sp ∧ s.reg Reg.sp < s.cfg.memWords
    · obtain ⟨t, ht, -, -, -, hregs, hword⟩ := hpush ha
      refine ⟨t, ht, framed_of_store (congrArg some (eaPush_advance s .f1r)) (fun r hip hsp => ?_) hword⟩
      rw [hregs r (List.mem_singleton.not.mp hsp), readDuring_of_ne_ip s 2 hip]
    · exact exists_framed_of_fault (hfault ha)
  | pop rd =>
    obtain ⟨-, hpop, hfault⟩ := popLoadsOrFaults s rd _ rfl
    by_cases ha : 0 ≤ wrap s.cfg (s.reg Reg.sp - 1) ∧ wrap s.cfg (s.reg Reg.sp - 1) < s.cfg.memWords
    · obtain ⟨t, ht, -, -, hregs, honly⟩ := hpop ha
      refine ⟨t, ht, framed_of_onlyRegisters (fun r hip hr => ?_) honly⟩
      obtain ⟨hsp, hrd⟩ : r ≠ Reg.sp ∧ r ≠ rd := by simpa [destinations] using hr
      rw [hregs r hsp hrd, readDuring_of_ne_ip s 2 hip]
    · exact exists_framed_of_fault (hfault ha)
  | ldlo imm rd => exact exists_framed_of_load rfl (ldloLoadsOrFaults s imm rd _ rfl).2
  | stlo imm rs =>
    exact exists_framed_of_store (congrArg some (eaFrame_advance s .f2ir imm)) (stloStoresOrFaults s imm rs _ hwf rfl).2

/-- Settles O37: an instruction has one next state, and its own rule is its frame there. -/
theorem frameOfEveryInstruction : Obligations.FrameOfEveryInstruction := by
  intro i s t hwf h
  obtain ⟨u, hu, hframe⟩ := exec_framed i hwf
  obtain rfl : u = t := by simpa [hu] using h
  exact hframe

end Sys2Proof.Machine
end

section
/-! PROOF. The invariant of a sound state: reset meets it, and it is kept by what a step begins with and by each thing a step can
do after that. -/

namespace Sys2Proof.Machine

/-! ### Stored words stay words -/

/-- The working copy of an outcome, if there is one, holds words. -/
def OutcomeHoldsWords (o : StepOutcome) : Prop := ∀ t, o = .continued t ∨ o = .halted t → t.HoldsWords

theorem outcomeHoldsWords_continued {t : State} (h : t.HoldsWords) : OutcomeHoldsWords (.continued t) := by
  rintro u (hu | hu) <;> cases hu
  exact h

theorem outcomeHoldsWords_halted {t : State} (h : t.HoldsWords) : OutcomeHoldsWords (.halted t) := by
  rintro u (hu | hu) <;> cases hu
  exact h

theorem outcomeHoldsWords_faulted (f : ExecFault) : OutcomeHoldsWords (.faulted f) := by
  rintro u (hu | hu) <;> cases hu

theorem State.HoldsWords.withRead {w : State} (h : w.HoldsWords) {a : Int} {k : Int → StepOutcome}
    (hk : ∀ v, w.cfg.IsWord v → OutcomeHoldsWords (k v)) : OutcomeHoldsWords (withRead w a k) := by
  by_cases ha : inRange w.cfg a = true
  · exact withRead_inRange k ha ▸ hk _ (h.read _)
  · exact withRead_outOfRange k ha ▸ outcomeHoldsWords_faulted _

theorem State.HoldsWords.withWrite {w : State} (h : w.HoldsWords) {a v : Int} {k : State → StepOutcome} (hv : w.cfg.IsWord v)
    (hk : inRange w.cfg a = true → (w.memWrite a v).HoldsWords → OutcomeHoldsWords (k (w.memWrite a v))) :
    OutcomeHoldsWords (withWrite w a v k) := by
  by_cases ha : inRange w.cfg a = true
  · exact withWrite_inRange k ha ▸ hk ha (h.memWrite a hv)
  · exact withWrite_outOfRange k ha ▸ outcomeHoldsWords_faulted _

section

variable {s : State} (hc : s.cfg.Valid) (h : s.HoldsWords)
include hc h

/-- Every result is narrowed, read from a register or from memory, an operand word, or one above an address of memory. -/
theorem exec_holdsWords {i : Instr} (hip : inRange s.cfg s.ip = true) (hwords : ∀ w ∈ encode i, s.cfg.IsWord w) :
    ∃ o, exec i s = commit s o ∧ OutcomeHoldsWords o := by
  have hcopy := h.advance hc hip
  have hbits := wordBits_ne_of_valid hc
  cases i with
  | movi imm rd =>
    exact ⟨_, rfl, outcomeHoldsWords_continued ((hcopy _).setReg rd (hwords imm (by simp [encode])))⟩
  | mov rs rd => exact ⟨_, rfl, outcomeHoldsWords_continued ((hcopy _).setReg rd ((hcopy _).reg rs))⟩
  | add rs rd | sub rs rd | mul rs rd =>
    exact ⟨_, rfl, outcomeHoldsWords_continued ((hcopy _).setReg rd (wrap_isWord hbits _))⟩
  | idiv rs rd =>
    refine ⟨_, rfl, ?_⟩
    split
    · exact outcomeHoldsWords_faulted _
    · split
      · exact outcomeHoldsWords_faulted _
      · exact outcomeHoldsWords_continued ((hcopy _).setReg rd (wrap_isWord hbits _))
  | jmp ra => exact ⟨_, rfl, outcomeHoldsWords_continued ((hcopy _).setReg _ ((hcopy _).reg ra))⟩
  | jnz rs ra =>
    refine ⟨_, rfl, outcomeHoldsWords_continued ?_⟩
    split
    · exact (hcopy _).setReg _ ((hcopy _).reg ra)
    · exact hcopy _
  | out rs => exact ⟨_, rfl, outcomeHoldsWords_continued ((hcopy _).emitData ((hcopy _).reg rs))⟩
  | halt => exact ⟨_, rfl, outcomeHoldsWords_halted (hcopy _)⟩
  | jal ra =>
    have hlink := (hcopy .f1r).setReg Reg.rp ((hcopy .f1r).reg Reg.ip)
    exact ⟨_, rfl, outcomeHoldsWords_continued (hlink.setReg _ (hlink.reg ra))⟩
  | ret => exact ⟨_, rfl, outcomeHoldsWords_continued ((hcopy _).setReg _ ((hcopy _).reg Reg.rp))⟩
  | ld ra rd | ldlo imm rd =>
    exact ⟨_, rfl, (hcopy _).withRead fun v hv => outcomeHoldsWords_continued ((hcopy _).setReg rd hv)⟩
  | st ra rs | stlo imm rs =>
    exact ⟨_, rfl, (hcopy _).withWrite ((hcopy _).reg rs) fun _ ht => outcomeHoldsWords_continued ht⟩
  | push rs =>
    refine ⟨_, rfl, (hcopy _).withWrite ((hcopy _).reg rs) fun ha ht => outcomeHoldsWords_continued (ht.setReg _ ?_)⟩
    obtain ⟨hlow, hhigh⟩ := inRange_iff.mp ha
    exact isWord_of_le_memWords hc (by omega) (Int.add_one_le_of_lt hhigh)
  | pop rd =>
    exact ⟨_, rfl, (hcopy _).withRead fun v hv =>
      outcomeHoldsWords_continued (((hcopy _).setReg _ (wrap_isWord hbits _)).setReg rd hv)⟩

omit hc in
/-- The fetched words are words of memory. -/
theorem fetchWindow_holdsWords (n : Nat) : ∀ a, ∀ w ∈ fetchWindow s.cfg s.mem a n, s.cfg.IsWord w := by
  induction n with
  | zero => exact nofun
  | succ n ih =>
    intro a w hw
    rw [fetchWindow] at hw
    split at hw
    · rcases List.mem_cons.mp hw with rfl | hw
      · exact h.read _
      · exact ih _ w hw
    · cases hw

theorem runEngine_holdsWords {t : State} (ht : runEngine s = .next t) : t.HoldsWords := by
  rcases runEngine_cases s with ⟨i, rest, hdec, hrun⟩ | ⟨e, -, hrun⟩ <;> rw [hrun] at ht
  · have hip : inRange s.cfg s.ip = true := by
      by_contra hout
      rw [fetched_nil hout] at hdec
      cases hdec
    have hwords : ∀ w ∈ encode i, s.cfg.IsWord w := by
      intro w hw
      have hmem : w ∈ s.fetched := eq_encode_of_decode hdec ▸ List.mem_append_left rest hw
      exact fetchWindow_holdsWords h 3 s.ip w hmem
    obtain ⟨o, ho, hafter⟩ := exec_holdsWords hc h hip hwords
    obtain rfl := commit_next.mp (ho.symm.trans ht)
    cases o with
    | continued w => exact hafter w (.inl rfl)
    | halted w => exact hafter w (.inr rfl)
    | faulted f => exact h.takeFault f
  · injection ht with ht
    exact ht ▸ h.takeFault _

end

/-! ### The parts of a step -/

theorem EngineWrote.inv {s t : State} (h : s.Inv) (hwrote : EngineWrote s t) (hwords : t.HoldsWords) : t.Inv := by
  obtain ⟨hc, -, hwf, hbound, hpaused, hwait, hstatus⟩ := h
  obtain ⟨⟨⟨hcfg, hdebug, -, -, -, hwait'⟩, hpaused', -⟩, hstatus', -, hwf', hbound'⟩ := hwrote
  refine ⟨hcfg ▸ hc, hwords, hwf' hwf, hcfg ▸ hbound' hbound, ?_, ?_, ?_⟩
  · rw [hpaused', hdebug]
    exact hpaused
  · rw [hwait', hpaused']
    exact hwait
  · rw [hstatus', hcfg]
    exact hstatus

/-- The run of a sound state ended with an allowed code is sound. -/
theorem State.Inv.exit {s : State} (h : s.Inv) {code : Int} (hcode : code = exitOk ∨ code = s.cfg.exitFailure) :
    (s.exit code).Inv := by
  obtain ⟨hc, hwords, hwf, hbound, hpaused, hwait, -⟩ := h
  exact ⟨hc, hwords, hwf, hbound, hpaused, hwait, decide_eq_true hcode⟩

theorem State.Inv.emitDiag {s : State} (h : s.Inv) (e : DiagEvent) : (s.emitDiag e).Inv := h

theorem State.Inv.takeFault {s : State} (h : s.Inv) (f : ExecFault) : (takeFault f s).Inv := by
  cases hd : s.debugEnabled with
  | false =>
    have heq : Machine.takeFault f s = (s.emitDiag (.faultReport f)).exit s.cfg.exitFailure := if_neg (by simp [hd])
    exact heq ▸ (h.emitDiag _).exit (.inr rfl)
  | true =>
    have heq : Machine.takeFault f s = { s.emitDiag (.faultReport f) with paused := true } := if_pos hd
    obtain ⟨hc, hwords, hwf, hbound, -, -, hstatus⟩ := h
    exact heq ▸ ⟨hc, hwords, hwf, hbound, fun _ => hd, fun _ => rfl, hstatus⟩

theorem State.Inv.runEngine {s t : State} (h : s.Inv) (ht : runEngine s = .next t) : t.Inv := by
  obtain ⟨hc, hwords, -⟩ := id h
  have hwords' := runEngine_holdsWords hc hwords ht
  rcases runEngine_next ht with hwrote | ⟨w, hwrote, rfl⟩ | ⟨f, rfl⟩
  · exact hwrote.inv h hwords'
  · exact (hwrote.inv h hwords').exit (.inl rfl)
  · exact h.takeFault f

theorem State.Inv.withWait {s : State} (h : s.Inv) {w : Wait} (hw : w = .command → s.paused = true) :
    State.Inv { s with wait := w } := by
  obtain ⟨hc, hwords, hwf, hbound, hpaused, -, hstatus⟩ := h
  exact ⟨hc, hwords, hwf, hbound, hpaused, hw, hstatus⟩

theorem State.Inv.withBreakpoint {s : State} (h : s.Inv) {b : Option Int} (hb : ∀ a ∈ b, s.cfg.IsWord a) :
    State.Inv { s with breakpoint := b } := by
  obtain ⟨hc, ⟨hregs, hcells, -, hout⟩, hrest⟩ := h
  exact ⟨hc, ⟨hregs, hcells, hb, hout⟩, hrest⟩

theorem State.Inv.dropAnswer {s : State} (h : s.Inv) {r : LoadResult} {more : List LoadResult} (hr : s.loaderIn = r :: more) :
    State.Inv { s with loaderIn := more } := by
  obtain ⟨hc, ⟨hregs, hcells, hbreak, hout, himages⟩, hrest⟩ := h
  exact ⟨hc, ⟨hregs, hcells, hbreak, hout, fun a ha => himages a (hr ▸ List.mem_cons_of_mem r ha)⟩, hrest⟩

theorem State.Inv.load {s : State} (h : s.Inv) {image : List Int} (himage : ∀ v ∈ image, s.cfg.IsWord v)
    (hfits : image.length ≤ s.cfg.memWords) : (s.load image).Inv := by
  obtain ⟨hc, hwords, -, -, hpaused, -, hstatus⟩ := h
  refine ⟨hc, hwords.load hc himage hfits, load_wf s image, fun cell hcell => ?_, hpaused, nofun, hstatus⟩
  have hcell' := (mem_ofImage hcell).2
  rw [load_cfg]
  omega

theorem State.Inv.loadFailed {s : State} (h : s.Inv) (k : LoadErrorKind) : (s.loadFailed k).Inv :=
  ((h.emitDiag (.loadError k)).withWait (w := .nothing) nofun).exit (.inr rfl)

theorem State.Inv.requestLoader {s : State} (h : s.Inv) : (requestLoader s).Inv := by
  rcases requestLoader_cases s with ⟨-, heq⟩ | ⟨r, more, hr, ⟨image, rfl, hfits, heq⟩ | ⟨k, heq⟩⟩ <;> rw [heq]
  · exact h.withWait nofun
  · obtain ⟨-, ⟨-, -, -, -, himages⟩, -⟩ := id h
    exact (h.dropAnswer hr).load (himages (.ok image) (hr ▸ List.mem_cons_self)) hfits
  · exact (h.dropAnswer hr).loadFailed k

/-- What is done before the engine runs, the loader is asked or a command acts leaves a sound state. -/
theorem Prepared.inv {s u : State} (hu : Prepared s u) (h : s.Inv) : u.Inv := by
  obtain ⟨hc, hwords, hwf, hbound, hpaused, -, hstatus⟩ := h
  simp only [State.Inv, State.HoldsWords, hu.cfg, hu.mem, hu.breakpoint, hu.dataOut, hu.loaderIn, hu.status, hu.sameInputs.reg]
  exact ⟨hc, hwords, hwf, hbound, hu.paused hpaused, fun hw => absurd hw hu.wait, hstatus⟩

/-- The breakpoint a command may set is IP or a resolved address. -/
theorem State.Inv.isWord_of_breakpoint {s : State} (h : s.Inv) {a : Int} (ha : a = s.ip ∨ inRange s.cfg a = true) :
    s.cfg.IsWord a := by
  obtain ⟨hc, hwords, -⟩ := h
  rcases ha with rfl | ha
  · exact hwords.reg Reg.ip
  · obtain ⟨hlow, hhigh⟩ := inRange_iff.mp ha
    exact isWord_of_le_memWords hc hlow hhigh.le

/-! ### The step -/

theorem runEngine_sameSetting {s t : State} (h : runEngine s = .next t) : SameSetting s t := by
  rcases runEngine_next h with ⟨⟨hset, -⟩, -⟩ | ⟨w, ⟨⟨hset, -⟩, -⟩, rfl⟩ | ⟨f, rfl⟩
  · exact hset
  · exact hset
  · obtain ⟨-, hset, -⟩ := takeFault_spec f s
    exact hset

theorem step_cfg {s t : State} (h : step s = .next t) : t.cfg = s.cfg := by
  obtain ⟨u, hu, ht⟩ := step_effects h
  rw [← hu.cfg]
  rcases ht with ht | rfl | rfl | ⟨e, rfl, -⟩ | ⟨b, rfl, -⟩ | rfl | ⟨rfl, -⟩
  · obtain ⟨hcfg, -⟩ := runEngine_sameSetting ht
    exact hcfg
  · obtain ⟨hcfg, -⟩ := requestLoader_keeps u
    exact hcfg
  all_goals rfl

/-- Settles O59: a step begins with a sound state, and each thing it can do then keeps it sound. -/
theorem stepKeepsInvariant : Obligations.StepKeepsInvariant := by
  intro s t h hstep
  refine ⟨?_, step_cfg hstep⟩
  obtain ⟨u, hu, ht⟩ := step_effects hstep
  have hinv := hu.inv h
  rcases ht with ht | rfl | rfl | ⟨e, rfl, -⟩ | ⟨b, rfl, hb⟩ | rfl | ⟨rfl, hpaused⟩
  · exact hinv.runEngine ht
  · exact hinv.requestLoader
  · exact hinv.exit (.inl rfl)
  · exact hinv.emitDiag e
  · exact hinv.withBreakpoint fun a ha => hinv.isWord_of_breakpoint (hb a ha)
  · exact hinv
  · obtain ⟨-, -, -, -, -, hwait, -⟩ := h
    exact hinv.withWait fun _ => hpaused hwait

/-! ### Reset -/

theorem reg_resetWith (cfg : Config) (dbg : Bool) (r : Reg) : (State.resetWith cfg dbg).reg r = 0 := by
  simp [State.reg, State.resetWith]

theorem resetWith_inv {cfg : Config} (hc : cfg.Valid) (dbg : Bool) : (State.resetWith cfg dbg).Inv := by
  have hwords : (State.resetWith cfg dbg).HoldsWords := by
    refine ⟨fun r => ?_, nofun, nofun, nofun, nofun⟩
    rw [reg_resetWith]
    exact zero_isWord _
  exact ⟨hc, hwords, rfl, nofun, id, nofun, rfl⟩

/-- Settles O60: after reset every register is 0, nothing else is stored, and the block waits for the loader. -/
theorem resetMeetsInvariant : Obligations.ResetMeetsInvariant :=
  ⟨fun _ dbg hc => resetWith_inv hc dbg, resetWith_inv (by decide) false⟩

end Sys2Proof.Machine
end

section
/-! PROOF. The debugger session (46_debugger.md section 1): what a step announces, consumes and leaves of debug mode, derived from all
it can do. -/

namespace Sys2Proof.Machine

/-! ### Breakpoint hits -/

/-- `t` has the events of `u`, and more that announce no breakpoint hit. -/
def AddsNoHit (u t : State) : Prop := ∃ events, t.diagOut = u.diagOut ++ events ∧ ∀ a, .breakpointHit a ∉ events

theorem addsNoHit_of_eq {u t : State} (h : t.diagOut = u.diagOut) : AddsNoHit u t := ⟨[], by simp [h], by simp⟩

theorem addsNoHit_of_event {u t : State} {e : DiagEvent} (h : t.diagOut = u.diagOut ++ [e]) (he : ∀ a, e ≠ .breakpointHit a) :
    AddsNoHit u t :=
  ⟨[e], h, fun a ha => he a (List.mem_singleton.mp ha).symm⟩

theorem runEngine_addsNoHit {u t : State} (h : runEngine u = .next t) : AddsNoHit u t := by
  rcases faultsLeaveTheSnapshot u t h with hdiag | ⟨f, -, -, -, hdiag, -⟩
  · exact addsNoHit_of_eq hdiag
  · exact addsNoHit_of_event hdiag nofun

theorem requestLoader_addsNoHit (u : State) : AddsNoHit u (requestLoader u) := by
  rcases requestLoader_cases u with ⟨-, h⟩ | ⟨r, more, -, ⟨image, -, -, h⟩ | ⟨k, h⟩⟩ <;> rw [h]
  · exact addsNoHit_of_eq rfl
  · exact addsNoHit_of_eq rfl
  · exact addsNoHit_of_event (loadFailed_diagOut _ k) nofun

/-- Settles O39: what a step begins with announces the hit, and nothing it can do after that announces one. -/
theorem breakpointHitOnlyAtTheBreakpoint : Obligations.BreakpointHitOnlyAtTheBreakpoint := by
  intro s t h
  obtain ⟨u, hu, ht⟩ := step_effects h
  obtain ⟨before, hbefore, hnone⟩ := hu.diagOut
  have hafter : AddsNoHit u t := by
    rcases ht with ht | rfl | rfl | ⟨e, rfl, he⟩ | ⟨b, rfl, -⟩ | rfl | ⟨rfl, -⟩
    · exact runEngine_addsNoHit ht
    · exact requestLoader_addsNoHit u
    · exact addsNoHit_of_eq rfl
    · exact addsNoHit_of_event (emitDiag_diagOut u e) he
    · exact addsNoHit_of_eq rfl
    · exact addsNoHit_of_eq rfl
    · exact addsNoHit_of_eq rfl
  obtain ⟨events, hevents, hnone'⟩ := hafter
  refine ⟨before ++ events, ?_, fun a ha => (List.mem_append.mp ha).elim (hnone a) (hnone' a)⟩
  rw [hevents, hbefore, hitEvents]
  simp only [List.append_assoc]

/-! ### Transactions and debug mode -/

/-- What follows the beginning of a step takes no transaction, and leaves debug mode as it is. -/
theorem step_keepsInput {s t : State} (h : step s = .next t) :
    ∃ u, Prepared s u ∧ t.cmdIn = u.cmdIn ∧ t.debugEnabled = u.debugEnabled := by
  obtain ⟨u, hu, ht⟩ := step_effects h
  refine ⟨u, hu, ?_⟩
  rcases ht with ht | rfl | rfl | ⟨e, rfl, -⟩ | ⟨b, rfl, -⟩ | rfl | ⟨rfl, -⟩
  · obtain ⟨-, hdebug, -, hcmd, -⟩ := runEngine_sameSetting ht
    exact ⟨hcmd, hdebug⟩
  · obtain ⟨-, -, hkept⟩ := requestLoader_keeps u
    exact hkept
  all_goals exact ⟨rfl, rfl⟩

/-- A sound block listens only in debug mode, paused or at its breakpoint. -/
theorem Listens.paused_or_atBreakpoint {s : State} (h : Listens s) (hinv : s.Inv) :
    s.debugEnabled = true ∧ (s.paused = true ∨ s.breakpoint = some s.ip) := by
  obtain ⟨-, -, -, -, hpaused, hwait, -⟩ := hinv
  obtain ⟨-, ⟨-, hd, hp⟩ | ⟨-, hd, -, hb⟩ | hw⟩ := h
  · exact ⟨hd, .inl hp⟩
  · exact ⟨hd, .inr hb⟩
  · exact ⟨hpaused (hwait hw), .inl (hwait hw)⟩

/-- Settles O41: a step takes a transaction only where it begins by receiving one, and a sound block receives one only there. -/
theorem commandsAreConsumedOneAtATime : Obligations.CommandsAreConsumedOneAtATime := by
  intro s t hinv h
  obtain ⟨u, hu, hcmd, -⟩ := step_keepsInput h
  rw [hcmd]
  rcases hu.cmdIn with hsame | ⟨c, hlistens, hc⟩
  · exact .inl hsame
  · exact .inr ⟨c, hc, hlistens.paused_or_atBreakpoint hinv⟩

/-- Settles O42: no part of a step turns debug mode on. -/
theorem endOfInputLeavesDebugModeForGood : Obligations.EndOfInputLeavesDebugModeForGood := by
  refine ⟨fun s rest h => step_of_receives h, fun s t h hd => ?_, fun s hrun hwait hd => ?_⟩
  · obtain ⟨u, hu, -, hdebug⟩ := step_keepsInput h
    rw [hdebug]
    by_contra hon
    exact nomatch hd.symm.trans (hu.debugEnabled (Bool.eq_true_of_not_eq_false hon))
  · exact step_of_runsFreely ⟨hrun, hwait, fun hon => nomatch hd.symm.trans hon⟩

/-! ### Which states have a next one -/

/-- Settles O57: every part of a running block's step answers. -/
theorem stepAnswersUntilExit : Obligations.StepAnswersUntilExit := by
  intro s
  refine ⟨⟨fun hrun => ?_, fun ⟨_, h⟩ => running_of_step h⟩, fun c hexit => by simp only [step, blockStep, hexit]⟩
  rcases running_cases hrun with hload | hlistens | hfree
  · exact ⟨_, step_of_loadRequestedFrom (.inl ⟨hrun, hload, rfl⟩)⟩
  · obtain ⟨t, ht, -⟩ := step_emits_received hlistens
    exact ⟨t, ht⟩
  · rw [step_of_runsFreely hfree]
    exact runEngine_answers s

/-! ### The prompt and the wait -/

/-- Away from a breakpoint, receiving is the consumed transaction and the prompt, where it has not been emitted yet. -/
theorem received_of_not_atBreakpoint {s : State} (h : ¬ AtBreakpoint s) (rest : List CmdIn) :
    received s rest = { s with
      cmdIn := rest
      wait := .nothing
      diagOut := s.diagOut ++ if s.wait = .command then [] else [.prompt s.ip] } := by
  simp only [received, hitEvents_not h, decide_eq_false h, Bool.or_false, List.nil_append]

theorem step_of_listens_nil {s : State} (h : Listens s) (hnot : ¬ AtBreakpoint s) (hcmd : s.cmdIn = []) :
    step s = .next { s with diagOut := s.diagOut ++ (if s.wait = .command then [] else [.prompt s.ip]), wait := .command } := by
  rw [step_of_listens h]
  simp only [hcmd, received_of_not_atBreakpoint hnot]

/-- Settles O40: a block that listens in vain waits, with the prompt emitted unless it waits already. -/
theorem pausedSessionPromptsAndWaits : Obligations.PausedSessionPromptsAndWaits := by
  constructor
  · intro s hrun hwait hd hp hcmd
    have hnot : ¬ AtBreakpoint s := fun ⟨_, _, hfree, _⟩ => nomatch hp.symm.trans hfree
    rw [step_of_listens_nil ⟨hrun, .inl ⟨hwait, hd, hp⟩⟩ hnot hcmd, if_neg (by simp [hwait])]
  · intro s hrun hwait hcmd
    have hnot : ¬ AtBreakpoint s := fun ⟨hfree, _⟩ => nomatch hwait.symm.trans hfree
    rw [step_of_listens_nil ⟨hrun, .inr (.inr hwait)⟩ hnot hcmd, if_pos hwait, List.append_nil, ← hwait]

end Sys2Proof.Machine
end

section
/-! PROOF. The commands that report, write the breakpoint or run the engine (46_debugger.md section 4), from what each does in the
state in which its line is handled. -/

namespace Sys2Proof.Machine

/-! ### print and examine -/

theorem resolveAddress_received (n : Token) (s : State) (rest : List CmdIn) :
    resolveAddress n (received s rest) = resolveAddress n s := rfl

section

variable {s : State} {n : Token}

theorem cmdPrint_of_some {i : Reg} (h : resolveRegister n = some i) :
    cmdPrint (some n) s = s.emitDiag (.printResult i (s.reg i)) := by
  simp only [cmdPrint, h]

theorem cmdPrint_of_none (h : resolveRegister n = none) :
    cmdPrint (some n) s = s.emitDiag (.cmdError (.badRegisterName n)) := by
  simp only [cmdPrint, h]

theorem cmdExamine_of_ok {a : Int} (h : resolveAddress n s = .ok a) :
    cmdExamine (some n) s = s.emitDiag (.examineResult a (s.memRead a)) := by
  simp only [cmdExamine, Option.getD_some, h]

theorem cmdExamine_of_error {e : CmdError} (h : resolveAddress n s = .error e) :
    cmdExamine (some n) s = s.emitDiag (.cmdError e) := by
  simp only [cmdExamine, Option.getD_some, h]

theorem cmdBreak_of_ok {a : Int} (h : resolveAddress n s = .ok a) : cmdBreak (some n) s = { s with breakpoint := some a } := by
  simp only [cmdBreak, h]

theorem cmdBreak_of_error {e : CmdError} (h : resolveAddress n s = .error e) :
    cmdBreak (some n) s = s.emitDiag (.cmdError e) := by
  simp only [cmdBreak, h]

theorem cmdDelete_of_none (h : s.breakpoint = none) : cmdDelete s = s.emitDiag (.cmdError .noBreakpointSet) := by
  simp only [cmdDelete, h]

theorem cmdDelete_of_ne_none (h : s.breakpoint ≠ none) : cmdDelete s = { s with breakpoint := none } := by
  obtain ⟨b, hb⟩ := Option.ne_none_iff_exists'.mp h
  simp only [cmdDelete, hb]

end

/-- Settles O48: each answer of the resolver is one report. -/
theorem printAndExamineReport : Obligations.PrintAndExamineReport := by
  intro s w arg rest h
  refine ⟨fun hd => ?_, fun hd => ?_⟩ <;> rw [step_of_command h hd]
  · refine ⟨?_, ?_, ?_⟩
    · rintro rfl
      rfl
    · rintro n i rfl hi
      exact congrArg _ (cmdPrint_of_some hi)
    · rintro n rfl hnone
      exact congrArg _ (cmdPrint_of_none hnone)
  · refine ⟨?_, ?_, ?_⟩
    · rintro rfl
      rfl
    · rintro n a rfl ha
      rw [← resolveAddress_received n s rest] at ha
      exact congrArg _ (cmdExamine_of_ok ha)
    · rintro n e rfl he
      rw [← resolveAddress_received n s rest] at he
      exact congrArg _ (cmdExamine_of_error he)

/-! ### break and delete -/

/-- Settles O49: each answer of the resolver is one write of the breakpoint or one report. -/
theorem breakAndDeleteSetTheBreakpoint : Obligations.BreakAndDeleteSetTheBreakpoint := by
  intro s w arg rest h
  refine ⟨fun hd => ?_, fun hd => ?_⟩ <;> rw [step_of_command h hd]
  · refine ⟨?_, ?_, ?_⟩
    · rintro rfl
      rfl
    · rintro n a rfl ha
      rw [← resolveAddress_received n s rest] at ha
      exact congrArg _ (cmdBreak_of_ok ha)
    · rintro n e rfl he
      rw [← resolveAddress_received n s rest] at he
      exact congrArg _ (cmdBreak_of_error he)
  · exact ⟨fun hnone => congrArg _ (cmdDelete_of_none (s := received s rest) hnone),
      fun hsome => congrArg _ (cmdDelete_of_ne_none (s := received s rest) hsome)⟩

/-! ### step and continue -/

theorem runEngine_paused_of_not_reported {s t : State} (h : runEngine s = .next t) (hdiag : t.diagOut = s.diagOut) :
    t.paused = s.paused := by
  rcases runEngine_next h with ⟨⟨-, hpaused, -⟩, -⟩ | ⟨w, ⟨⟨-, hpaused, -⟩, -⟩, rfl⟩ | ⟨f, rfl⟩
  · exact hpaused
  · exact hpaused
  · exact absurd hdiag (takeFault_spec f s).diagOut_ne

/-- A fault taken pauses the session or leaves the pause as it was (R206, R207). -/
theorem FaultTaken.keepsPause {f : ExecFault} {s t : State} (h : FaultTaken f s t) (hpaused : s.paused = true) :
    t.paused = true := by
  obtain ⟨-, -, -, -, hon, hoff⟩ := h
  cases hd : s.debugEnabled with
  | true => exact (hon hd).1
  | false => exact (hoff hd).1.trans hpaused

theorem runEngine_keepsPause {s t : State} (h : runEngine s = .next t) (hpaused : s.paused = true) : t.paused = true := by
  rcases faultsLeaveTheSnapshot s t h with hdiag | ⟨f, hf⟩
  · exact (runEngine_paused_of_not_reported h hdiag).trans hpaused
  · exact hf.keepsPause hpaused

/-- Settles O50: a run of the engine clears no pause, and makes one only where it reports a fault. -/
theorem stepAndContinueRunTheEngine : Obligations.StepAndContinueRunTheEngine := by
  intro s w arg rest h
  refine ⟨fun hd => ?_, fun hd => ?_⟩ <;> rw [step_of_command h hd]
  · exact ⟨rfl, fun t hpaused ht => runEngine_keepsPause ht hpaused⟩
  · exact ⟨rfl, fun t ht hdiag => runEngine_paused_of_not_reported ht hdiag⟩

end Sys2Proof.Machine
end

section
/-! PROOF. The command decoder (46_debugger.md section 2): the commands' words have different first letters, so a non-empty
beginning of one of them begins no other (R212). -/

namespace Sys2Proof.Machine

theorem mem_vocabulary (c : Command) : c ∈ vocabulary := by cases c <;> decide

theorem commandWord_head_injective : ∀ c ∈ vocabulary, ∀ d ∈ vocabulary,
    (commandWord c).head? = (commandWord d).head? → c = d := by decide

theorem head?_of_prefix {t word : Token} (ht : t ≠ []) (h : t <+: word) : word.head? = t.head? := by
  obtain ⟨rest, rfl⟩ := h
  exact List.head?_append_of_ne_nil t ht

theorem prefix_commandWord_unique {t : Token} {c d : Command} (ht : t ≠ []) (hc : t <+: commandWord c)
    (hd : t <+: commandWord d) : c = d :=
  commandWord_head_injective c (mem_vocabulary c) d (mem_vocabulary d)
    ((head?_of_prefix ht hc).trans (head?_of_prefix ht hd).symm)

theorem filter_vocabulary_eq (c : Command) : vocabulary.filter (fun v => decide (v = c)) = [c] := by cases c <;> decide

theorem filter_vocabulary_of_prefix {t : Token} {c : Command} (ht : t ≠ []) (hc : t <+: commandWord c) :
    vocabulary.filter (fun v => t.isPrefixOf (commandWord v)) = [c] := by
  rw [← filter_vocabulary_eq c]
  refine List.filter_congr fun v _ => ?_
  rw [Bool.eq_iff_iff, List.isPrefixOf_iff_prefix, decide_eq_true_eq]
  exact ⟨fun hv => prefix_commandWord_unique ht hv hc, fun hv => hv ▸ hc⟩

theorem not_x_prefix (c : Command) : ¬ ['x'] <+: commandWord c := by cases c <;> decide

theorem lowercase_ne_nil {w : Token} (h : w ≠ []) : lowercase w ≠ [] := by simpa [lowercase] using h

theorem decodeCommand_of_x {w : Token} (h : lowercase w = ['x']) : decodeCommand w = .command .examine := if_pos h

theorem decodeCommand_nil : decodeCommand [] = .ambiguous := rfl

theorem decodeCommand_of_prefix {w : Token} {c : Command} (hw : w ≠ []) (h : lowercase w <+: commandWord c) :
    decodeCommand w = .command c := by
  have hx : lowercase w ≠ ['x'] := fun hx => not_x_prefix c (hx ▸ h)
  simp only [decodeCommand, if_neg hx, filter_vocabulary_of_prefix (lowercase_ne_nil hw) h]

theorem decodeCommand_of_no_prefix {w : Token} (hx : lowercase w ≠ ['x']) (h : ∀ c, ¬ lowercase w <+: commandWord c) :
    decodeCommand w = .noMatch := by
  have hnone : vocabulary.filter (fun v => (lowercase w).isPrefixOf (commandWord v)) = [] :=
    List.filter_eq_nil_iff.mpr fun v _ => List.isPrefixOf_iff_prefix.not.mpr (h v)
  simp only [decodeCommand, if_neg hx, hnone]

/-- The four kinds of words. -/
theorem decodeCommand_cases (w : Token) :
    (lowercase w = ['x'] ∧ decodeCommand w = .command .examine) ∨ (w = [] ∧ decodeCommand w = .ambiguous) ∨
    (∃ c, w ≠ [] ∧ lowercase w <+: commandWord c ∧ decodeCommand w = .command c) ∨ decodeCommand w = .noMatch := by
  by_cases hx : lowercase w = ['x']
  · exact .inl ⟨hx, decodeCommand_of_x hx⟩
  by_cases hw : w = []
  · exact .inr (.inl ⟨hw, hw ▸ decodeCommand_nil⟩)
  by_cases hc : ∃ c, lowercase w <+: commandWord c
  · obtain ⟨c, hc⟩ := hc
    exact .inr (.inr (.inl ⟨c, hw, hc, decodeCommand_of_prefix hw hc⟩))
  · exact .inr (.inr (.inr (decodeCommand_of_no_prefix hx (not_exists.mp hc))))

/-- Settles O43: of the four kinds of words two name a command, and one is ambiguous. -/
theorem commandDecoderAcceptsPrefixes : Obligations.CommandDecoderAcceptsPrefixes := by
  refine ⟨fun w c => ⟨fun h => ?_, ?_⟩, fun w => ⟨fun h => ?_, fun hw => hw ▸ decodeCommand_nil⟩⟩
  · rcases decodeCommand_cases w with ⟨hx, hdec⟩ | ⟨-, hdec⟩ | ⟨d, hw, hd, hdec⟩ | hdec <;> rw [hdec] at h
    · exact .inl ⟨hx, (Decoded.command.inj h).symm⟩
    · cases h
    · exact .inr ⟨hw, Decoded.command.inj h ▸ hd⟩
    · cases h
  · rintro (⟨hx, rfl⟩ | ⟨hw, hc⟩)
    · exact decodeCommand_of_x hx
    · exact decodeCommand_of_prefix hw hc
  · rcases decodeCommand_cases w with ⟨-, hdec⟩ | ⟨hw, -⟩ | ⟨d, -, -, hdec⟩ | hdec
    · exact nomatch hdec.symm.trans h
    · exact hw
    · exact nomatch hdec.symm.trans h
    · exact nomatch hdec.symm.trans h

end Sys2Proof.Machine
end

section
/-! PROOF. The Address/Register Resolver (46_debugger.md section 3): the register names, and the address a token stands for. -/

namespace Sys2Proof.Machine

/-! ### Register names -/

/-- The lowered token `t` is a name of register `i` (R214): one of the four names, or `r` and the register's number in digits. -/
def NamesRegister (t : Token) (i : Reg) : Prop :=
  (t = ['i', 'p'] ∧ i = Reg.ip) ∨ (t = ['r', 'p'] ∧ i = Reg.rp) ∨ (t = ['f', 'p'] ∧ i = Reg.fp) ∨
    (t = ['s', 'p'] ∧ i = Reg.sp) ∨
    ∃ ds, t = 'r' :: ds ∧ ds ≠ [] ∧ (∀ c ∈ ds, isDecimalDigit c = true) ∧ decimalValue ds = i.val

/-- The numbered names. -/
theorem resolveRegister_of_digits {w ds : Token} (hw : lowercase w = 'r' :: ds) (hds : ds ≠ [])
    (hdig : ∀ c ∈ ds, isDecimalDigit c = true) :
    resolveRegister w = if h : decimalValue ds < 32 then some ⟨decimalValue ds, h⟩ else none := by
  obtain ⟨d, ds, rfl⟩ := List.exists_cons_of_ne_nil hds
  have hp : d ≠ 'p' := by
    rintro rfl
    exact absurd (hdig 'p' List.mem_cons_self) (by decide)
  have hall : (d :: ds).all isDecimalDigit = true := List.all_eq_true.mpr hdig
  simp [resolveRegister, hw, hp, hall]

theorem resolveRegister_eq_some_iff (w : Token) (i : Reg) : resolveRegister w = some i ↔ NamesRegister (lowercase w) i := by
  constructor
  · intro h
    simp only [resolveRegister] at h
    split at h
    · exact .inl ⟨‹_›, (Option.some.inj h).symm⟩
    split at h
    · exact .inr (.inl ⟨‹_›, (Option.some.inj h).symm⟩)
    split at h
    · exact .inr (.inr (.inl ⟨‹_›, (Option.some.inj h).symm⟩))
    split at h
    · exact .inr (.inr (.inr (.inl ⟨‹_›, (Option.some.inj h).symm⟩)))
    split at h
    · rename_i d ds ht
      rw [Option.ite_none_right_eq_some, Option.dite_none_right_eq_some] at h
      obtain ⟨hdig, hlt, hi⟩ := h
      exact .inr (.inr (.inr (.inr ⟨d :: ds, ht, nofun, List.all_eq_true.mp hdig, congrArg Fin.val (Option.some.inj hi)⟩)))
    · cases h
  · rintro (⟨hw, rfl⟩ | ⟨hw, rfl⟩ | ⟨hw, rfl⟩ | ⟨hw, rfl⟩ | ⟨ds, hw, hds, hdig, hval⟩)
    · simp [resolveRegister, hw]
    · simp [resolveRegister, hw]
    · simp [resolveRegister, hw]
    · simp [resolveRegister, hw]
    · rw [resolveRegister_of_digits hw hds hdig, dif_pos (hval ▸ i.isLt)]
      exact congrArg some (Fin.ext hval)

/-- Settles O45; that each shown name resolves is a check of the 32 registers. -/
theorem registerResolverAcceptsExactlyTheNames : Obligations.RegisterResolverAcceptsExactlyTheNames :=
  ⟨resolveRegister_eq_some_iff, by decide⟩

/-! ### Addresses -/

theorem toLower_of_isDecimalDigit {c : Char} (h : isDecimalDigit c = true) : c.toLower = c := by
  refine dif_neg fun ⟨hA, _⟩ => ?_
  have hdigit := (of_decide_eq_true h).2
  exact absurd (Nat.le_trans hA hdigit) (by decide)

theorem lowercase_of_digits {w : Token} (h : ∀ c ∈ w, isDecimalDigit c = true) : lowercase w = w :=
  (List.map_congr_left fun c hc => toLower_of_isDecimalDigit (h c hc)).trans (List.map_id w)

/-- A name of a register begins with a letter. -/
theorem NamesRegister.exists_letter {t : Token} {i : Reg} (h : NamesRegister t i) : ∃ c ∈ t, isDecimalDigit c = false := by
  rcases h with ⟨rfl, -⟩ | ⟨rfl, -⟩ | ⟨rfl, -⟩ | ⟨rfl, -⟩ | ⟨ds, rfl, -⟩ <;>
    exact ⟨_, List.mem_cons_self, by decide⟩

theorem resolveRegister_of_all_digits {w : Token} (h : ∀ c ∈ w, isDecimalDigit c = true) : resolveRegister w = none := by
  refine Option.eq_none_iff_forall_ne_some.mpr fun i hi => ?_
  have hname := (resolveRegister_eq_some_iff w i).mp hi
  rw [lowercase_of_digits h] at hname
  obtain ⟨c, hc, hletter⟩ := hname.exists_letter
  exact nomatch (h c hc).symm.trans hletter

theorem checkAddress_eq (c : Config) (a : Int) :
    checkAddress c a = if 0 ≤ a ∧ a < c.memWords then .ok a else .error (.addressOutOfRange a) := by
  simp only [checkAddress, inRange_iff]

section

variable {w : Token} (s : State)

theorem resolveAddress_of_register {i : Reg} (h : resolveRegister w = some i) :
    resolveAddress w s = checkAddress s.cfg (s.reg i) := by
  cases w with
  | nil => cases h
  | cons c cs => simp only [resolveAddress, h]

theorem resolveAddress_of_digits (hw : w ≠ []) (h : ∀ c ∈ w, isDecimalDigit c = true) :
    resolveAddress w s = checkAddress s.cfg (decimalValue w) := by
  have hliteral : parseLiteral w = some (decimalValue w) := if_pos ⟨hw, List.all_eq_true.mpr h⟩
  obtain ⟨c, cs, rfl⟩ := List.exists_cons_of_ne_nil hw
  simp only [resolveAddress, resolveRegister_of_all_digits h, h c List.mem_cons_self, if_true, hliteral]

theorem resolveAddress_of_other (hw : w ≠ []) (hreg : resolveRegister w = none) (h : ∃ c ∈ w, isDecimalDigit c = false) :
    resolveAddress w s = .error (.malformedAddress w) := by
  have hnot : ¬ w.all isDecimalDigit = true := by simpa using h
  have hliteral : parseLiteral w = none := if_neg fun hall => hnot hall.2
  obtain ⟨c, cs, rfl⟩ := List.exists_cons_of_ne_nil hw
  simp only [resolveAddress, hreg, hliteral, ite_self]

end

/-- Settles O46: each kind of token goes through the bounds check or is an error. -/
theorem addressResolverIsBoundsChecked : Obligations.AddressResolverIsBoundsChecked := by
  intro w s
  refine ⟨fun a ha => inRange_iff.mp (resolveAddress_inRange ha), fun hw => hw ▸ rfl, fun i hi => ?_, fun hw hdig => ?_,
    resolveAddress_of_other s⟩
  · rw [resolveAddress_of_register s hi, checkAddress_eq]
  · rw [resolveAddress_of_digits s hw hdig, checkAddress_eq]
    simp only [Int.natCast_nonneg, Nat.cast_lt, true_and]

end Sys2Proof.Machine
end

section
/-! PROOF. The loader's answer (70_reset_and_hazards.md section 1): what a step that requests it leaves, when the answer is an image
that fits, an error or not there yet. -/

namespace Sys2Proof.Machine

theorem requestLoader_of_nil {s : State} (h : s.loaderIn = []) : requestLoader s = { s with wait := .loader } := by
  simp only [requestLoader, h]

theorem requestLoader_of_cons {s : State} {r : LoadResult} {more : List LoadResult} (h : s.loaderIn = r :: more) :
    requestLoader s = { s with loaderIn := more }.takeAnswer r := by
  simp only [requestLoader, h]

/-! ### An image that fits -/

theorem takeAnswer_of_fits {s : State} {image : List Int} (h : image.length ≤ s.cfg.memWords) :
    s.takeAnswer (.ok image) = s.load image := by
  simp only [State.takeAnswer, checkedAnswer, if_pos h]

theorem load_freshSnapshot (s : State) (image : List Int) : FreshSnapshot image (s.load image) := by
  refine ⟨reg_load s image, fun a => ?_⟩
  rw [load_mem, read_ofImage, if_pos a.zero_le, Nat.sub_zero]
  split
  · exact List.getD_eq_getElem _ _ _
  · exact List.getD_eq_default _ _ (by omega)

theorem step_of_load {s u : State} {image : List Int} {more : List LoadResult} (h : LoadRequestedFrom s u)
    (hanswer : u.loaderIn = .ok image :: more) (hfits : image.length ≤ u.cfg.memWords) :
    step s = .next ({ u with loaderIn := more }.load image) := by
  rw [step_of_loadRequestedFrom h, requestLoader_of_cons hanswer]
  exact congrArg _ (takeAnswer_of_fits hfits)

/-- Settles O52: after reset the first step requests the loader's answer, and the one at hand is the image. -/
theorem resetLoadsTheImage : Obligations.ResetLoadsTheImage := by
  intro cfg dbg image hfits
  have hload := step_of_load (s := (State.resetWith cfg dbg).offerLoad (.ok image)) (.inl ⟨rfl, rfl, rfl⟩) rfl hfits
  exact ⟨_, hload, load_freshSnapshot _ image, load_wf _ image, rfl, rfl, rfl, rfl, rfl, rfl, rfl, rfl⟩

/-- Settles O53: a load writes the snapshot alone, and with no answer at hand the request is the wait. -/
theorem restartReloadsTheSnapshot : Obligations.RestartReloadsTheSnapshot := by
  constructor
  · intro s u image more hreq hanswer hfits
    exact ⟨_, step_of_load hreq hanswer hfits, load_freshSnapshot _ image, load_wf _ image, rfl, rfl, rfl, rfl, rfl, rfl, rfl, rfl, rfl, rfl⟩
  · intro s u hreq hnone
    rw [step_of_loadRequestedFrom hreq, requestLoader_of_nil hnone]

/-! ### A load error -/

theorem takeAnswer_of_tooLarge {s : State} {image : List Int} (h : s.cfg.memWords < image.length) :
    s.takeAnswer (.ok image) = s.loadFailed (.imageTooLarge image.length) := by
  simp only [State.takeAnswer, checkedAnswer, if_neg (Nat.not_le_of_lt h)]

/-- Settles O55: an error and an image that does not fit are a failed load (R302). -/
theorem loadFailureEndsTheRun : Obligations.LoadFailureEndsTheRun := by
  intro s u r more hreq hanswer
  rw [step_of_loadRequestedFrom hreq, requestLoader_of_cons hanswer]
  constructor
  · rintro k rfl
    exact ⟨_, rfl, rfl, rfl, rfl⟩
  · rintro image rfl hlarge
    rw [takeAnswer_of_tooLarge (s := { u with loaderIn := more }) hlarge]
    exact ⟨_, rfl, rfl, rfl, rfl⟩

end Sys2Proof.Machine
end
